-- ==== Sys2Proof/Word.lean ====
section
/-! DEFINITION. The machine's word. -/

namespace Sys2Proof

/-- 16 bits: the width of every register, operand, instruction and memory word (00_scope.md R4). Its unsigned
reading is `BitVec.toNat`, its signed (two's complement) reading `signed(v)` of R6 is `BitVec.toInt`. -/
abbrev Word := BitVec 16

/-- One byte of a host's image file. The machine itself has no bytes (20_memory.md R35). -/
abbrev Byte := BitVec 8

end Sys2Proof
end

