-- ==== Sys2Proof/Machine/Flags.lean ====
section
/-! DEFINITION. RISC-Z has no flags: no instruction sets a carry, overflow, zero or sign flag, and none reads one
(10_state.md R24). What another machine would take from flags, the four branch conditions, is computed here from
the two registers a branch compares (43_branch_mode.md R100). -/

namespace Sys2Proof.Machine

/-- `beq`: all 16 bits equal (R101). -/
def condEqual (a b : Word) : Bool := a == b

/-- `bne`: some bit differs (R102). -/
def condNotEqual (a b : Word) : Bool := a != b

/-- `bgt`: `signed(a) > signed(b)` (R103, D14). -/
def condGreater (a b : Word) : Bool := b.slt a

/-- `blt`: `signed(a) < signed(b)` (R104, D14). -/
def condLess (a b : Word) : Bool := a.slt b

end Sys2Proof.Machine
end

