-- ==== Sys2Proof/Syntax.lean ====
section
/-! DEFINITION. Registers and instructions as syntax: one constructor of `Instr` per row of spec/opcode_table.json. -/

namespace Sys2Proof

/-- The sixteen registers under the names of Table 1 (10_state.md R11, R12). -/
inductive Reg where
  /-- x0, the constant zero (R13) -/
  | x0
  /-- x1, the link register (R15) -/
  | ra
  /-- x2, frame pointer by convention only (R16) -/
  | fp
  /-- x3, stack pointer by convention only (R16) -/
  | sp
  /-- x4, the program counter (R17) -/
  | pc
  | x5
  | x6
  | x7
  | x8
  | x9
  | x10
  | x11
  | x12
  | x13
  | x14
  | x15
  deriving DecidableEq, Repr

/-- The 21 instructions. Operands stand in the order of the source's Format lines (30_encoding.md R75). An
immediate is kept as its raw field (00_scope.md R8), whose signed reading belongs to the instruction's rule. -/
inductive Instr where
  | halt
  | addr (rd rs1 rs2 : Reg)
  | andr (rd rs1 rs2 : Reg)
  | nandr (rd rs1 rs2 : Reg)
  | orr (rd rs1 rs2 : Reg)
  | subr (rd rs1 rs2 : Reg)
  | addi (rd : Reg) (imm8 : BitVec 8)
  | movu (rd : Reg) (imm8 : BitVec 8)
  | movl (rd : Reg) (imm8 : BitVec 8)
  | jmp (imm10 : BitVec 10)
  | ret
  | beq (rs1 rs2 : Reg) (imm4 : BitVec 4)
  | bne (rs1 rs2 : Reg) (imm4 : BitVec 4)
  | bgt (rs1 rs2 : Reg) (imm4 : BitVec 4)
  | blt (rs1 rs2 : Reg) (imm4 : BitVec 4)
  /-- `rd` receives the word, `rs1` holds the address (R110) -/
  | ld (rd rs1 : Reg)
  /-- `rd` holds the address, `rs1` the data (R111, C13) -/
  | str (rd rs1 : Reg)
  | shl (rs1 : Reg) (imm6 : BitVec 6)
  | sal (rs1 : Reg) (imm6 : BitVec 6)
  | shr (rs1 : Reg) (imm6 : BitVec 6)
  | sar (rs1 : Reg) (imm6 : BitVec 6)
  deriving DecidableEq, Repr

/-- The mnemonics of the 21 rows of spec/opcode_table.json. -/
inductive Mnemonic where
  | halt
  | addr
  | andr
  | nandr
  | orr
  | subr
  | addi
  | movu
  | movl
  | jmp
  | ret
  | beq
  | bne
  | bgt
  | blt
  | ld
  | str
  | shl
  | sal
  | shr
  | sar
  deriving DecidableEq, Repr

/-- The three assembler mnemonics with no encoding of their own (30_encoding.md R76). -/
inductive Pseudo where
  | push (rs1 : Reg)
  | pop (rs1 : Reg)
  | mov (rd rs1 : Reg)
  deriving DecidableEq, Repr

end Sys2Proof
end

