-- ==== Sys2Proof/WellFormed.lean ====
section
/-! DEFINITION. Which instruction terms an encoding stands for. -/

namespace Sys2Proof

/-- The one field whose legal values are fewer than its bits allow: the amount of a shift is 0 to 31, so bit 5 of
`imm6` (instruction bit 11) is clear (30_encoding.md R64, R68). Every other field takes every value (R53). -/
def Instr.wellFormed : Instr → Bool
  | .shl _ imm6 | .sal _ imm6 | .shr _ imm6 | .sar _ imm6 => !imm6.msb
  | .halt | .addr _ _ _ | .andr _ _ _ | .nandr _ _ _ | .orr _ _ _ | .subr _ _ _ | .addi _ _ | .movu _ _ | .movl _ _
  | .jmp _ | .ret | .beq _ _ _ | .bne _ _ _ | .bgt _ _ _ | .blt _ _ _ | .ld _ _ | .str _ _ => true

end Sys2Proof
end

