-- ==== Sys2Proof/Decode.lean ====
section
/-! DEFINITION. The decoder, total on 16-bit words and rejecting by name; the encoder; the opcode table. -/

namespace Sys2Proof

/-- Why a word is `Illegal`. -/
inductive Illegal where
  /-- opcode 1110 with LS = 00 or 11 (30_encoding.md R67, D12) -/
  | unassignedSelector
  /-- opcode 1111 with bit 11 set, a negative amount (R68, D11) -/
  | negativeAmount
  /-- `STRICT_UNUSED = true` and an unused bit is set (R69, D13) -/
  | unusedBitSet
  deriving DecidableEq, Repr

/-- Field value `i` names `x<i>` (R53). -/
def Reg.ofField (b : BitVec 4) : Reg :=
  match b.toNat with
  | 0 => .x0
  | 1 => .ra
  | 2 => .fp
  | 3 => .sp
  | 4 => .pc
  | 5 => .x5
  | 6 => .x6
  | 7 => .x7
  | 8 => .x8
  | 9 => .x9
  | 10 => .x10
  | 11 => .x11
  | 12 => .x12
  | 13 => .x13
  | 14 => .x14
  | _ => .x15

/-- The number of a register, as its 4-bit field (R53). -/
def Reg.field : Reg → BitVec 4
  | .x0 => 0
  | .ra => 1
  | .fp => 2
  | .sp => 3
  | .pc => 4
  | .x5 => 5
  | .x6 => 6
  | .x7 => 7
  | .x8 => 8
  | .x9 => 9
  | .x10 => 10
  | .x11 => 11
  | .x12 => 12
  | .x13 => 13
  | .x14 => 14
  | .x15 => 15

/-- OPCODE, bits 3:0 of every format (R51). -/
def opcodeField (w : Word) : BitVec 4 := w.extractLsb' 0 4

/-- RS1, bits 15:12 (R53). -/
def rs1Field (w : Word) : Reg := .ofField (w.extractLsb' 12 4)

/-- RS2, bits 11:8 (R53). -/
def rs2Field (w : Word) : Reg := .ofField (w.extractLsb' 8 4)

/-- RD, bits 7:4 (R53). -/
def rdField (w : Word) : Reg := .ofField (w.extractLsb' 4 4)

/-- Immediate[7:0] of the I format, bits 15:8 (R55, R61). -/
def imm8Field (w : Word) : BitVec 8 := w.extractLsb' 8 8

/-- Immediate[9:0] of the J format, bits 15:6 (R56, R62). -/
def imm10Field (w : Word) : BitVec 10 := w.extractLsb' 6 10

/-- Imm[3:0] of the B format, bits 7:4 (R57, R63). -/
def imm4Field (w : Word) : BitVec 4 := w.extractLsb' 4 4

/-- Immediate[5:0] of the S format, bits 11:6 (R59, R64). -/
def imm6Field (w : Word) : BitVec 6 := w.extractLsb' 6 6

/-- Opcode 1001: bit 4 selects `ret` (R56, R65). -/
def decodeJump (w : Word) : Instr :=
  if w.getLsbD 4 then .ret else .jmp (imm10Field w)

/-- Opcode 1110: LS, bits 9:8, selects `ld` (10) or `str` (01) (R58, R65); the other two values are illegal (R67). -/
def decodeLoadStore (w : Word) : Except Illegal Instr :=
  match w.getLsbD 9, w.getLsbD 8 with
  | true, false => .ok (.ld (rdField w) (rs1Field w))
  | false, true => .ok (.str (rdField w) (rs1Field w))
  | _, _ => .error .unassignedSelector

/-- Opcode 1111: bit 11 must be clear (R68); A, bit 5, and D, bit 4, select the shift (R59, R65). -/
def decodeShift (w : Word) : Except Illegal Instr :=
  if w.getLsbD 11 then .error .negativeAmount
  else .ok <| match w.getLsbD 5, w.getLsbD 4 with
    | false, false => .shl (rs1Field w) (imm6Field w)
    | true, false => .sal (rs1Field w) (imm6Field w)
    | false, true => .shr (rs1Field w) (imm6Field w)
    | true, true => .sar (rs1Field w) (imm6Field w)

/-- The decoder of R66, with the unused bits ignored. -/
def decodeFields (w : Word) : Except Illegal Instr :=
  match (opcodeField w).toNat with
  | 0 => .ok .halt
  | 1 => .ok (.addr (rdField w) (rs1Field w) (rs2Field w))
  | 2 => .ok (.andr (rdField w) (rs1Field w) (rs2Field w))
  | 3 => .ok (.nandr (rdField w) (rs1Field w) (rs2Field w))
  | 4 => .ok (.orr (rdField w) (rs1Field w) (rs2Field w))
  | 5 => .ok (.subr (rdField w) (rs1Field w) (rs2Field w))
  | 6 => .ok (.addi (rdField w) (imm8Field w))
  | 7 => .ok (.movu (rdField w) (imm8Field w))
  | 8 => .ok (.movl (rdField w) (imm8Field w))
  | 9 => .ok (decodeJump w)
  | 10 => .ok (.beq (rs1Field w) (rs2Field w) (imm4Field w))
  | 11 => .ok (.bne (rs1Field w) (rs2Field w) (imm4Field w))
  | 12 => .ok (.bgt (rs1Field w) (rs2Field w) (imm4Field w))
  | 13 => .ok (.blt (rs1Field w) (rs2Field w) (imm4Field w))
  | 14 => decodeLoadStore w
  | _ => decodeShift w

/-- The bits of an instruction's format that take no part in decoding or execution: the fields marked "-" and the
immediate of `ret` (R69). -/
def Instr.unusedMask : Instr → Word
  | .halt => 0xFFF0
  | .jmp _ => 0x0020
  | .ret => 0xFFE0
  | .ld _ _ | .str _ _ => 0x0C00
  | .addr _ _ _ | .andr _ _ _ | .nandr _ _ _ | .orr _ _ _ | .subr _ _ _ | .addi _ _ | .movu _ _ | .movl _ _
  | .beq _ _ _ | .bne _ _ _ | .bgt _ _ _ | .blt _ _ _ | .shl _ _ | .sal _ _ | .shr _ _ | .sar _ _ => 0

/-- The decoder under either value of `STRICT_UNUSED` (R66, R69). -/
def decode (strict : Bool) (w : Word) : Except Illegal Instr :=
  match decodeFields w with
  | .error why => .error why
  | .ok i => if strict && w &&& i.unusedMask != 0 then .error .unusedBitSet else .ok i

/-- R format: RS1, RS2, RD, OPCODE from the most significant field down (R54). -/
def encodeR (opcode : BitVec 4) (rd rs1 rs2 : Reg) : Word := rs1.field ++ rs2.field ++ rd.field ++ opcode

/-- I format: Immediate[7:0], RD, OPCODE (R55). -/
def encodeI (opcode : BitVec 4) (rd : Reg) (imm8 : BitVec 8) : Word := imm8 ++ rd.field ++ opcode

/-- J format: Immediate[9:0], the unused bit written as 0, R, OPCODE 1001 (R56, R69). -/
def encodeJ (imm10 : BitVec 10) (r : BitVec 1) : Word := imm10 ++ 0#1 ++ r ++ 0b1001#4

/-- B format: RS1, RS2, Imm[3:0], OPCODE (R57). -/
def encodeB (opcode : BitVec 4) (rs1 rs2 : Reg) (imm4 : BitVec 4) : Word := rs1.field ++ rs2.field ++ imm4 ++ opcode

/-- LS format: RS1, two unused bits written as 0, LS, RD, OPCODE 1110 (R58, R69). -/
def encodeLS (ls : BitVec 2) (rd rs1 : Reg) : Word := rs1.field ++ 0#2 ++ ls ++ rd.field ++ 0b1110#4

/-- S format: RS1, Immediate[5:0], A and D, OPCODE 1111 (R59). -/
def encodeS (ad : BitVec 2) (rs1 : Reg) (imm6 : BitVec 6) : Word := rs1.field ++ imm6 ++ ad ++ 0b1111#4

/-- The word an assembler writes for an instruction: unused bits are 0 (R69). -/
def encode : Instr → Word
  | .halt => 0#12 ++ 0b0000#4
  | .addr rd rs1 rs2 => encodeR 0b0001 rd rs1 rs2
  | .andr rd rs1 rs2 => encodeR 0b0010 rd rs1 rs2
  | .nandr rd rs1 rs2 => encodeR 0b0011 rd rs1 rs2
  | .orr rd rs1 rs2 => encodeR 0b0100 rd rs1 rs2
  | .subr rd rs1 rs2 => encodeR 0b0101 rd rs1 rs2
  | .addi rd imm8 => encodeI 0b0110 rd imm8
  | .movu rd imm8 => encodeI 0b0111 rd imm8
  | .movl rd imm8 => encodeI 0b1000 rd imm8
  | .jmp imm10 => encodeJ imm10 0
  | .ret => encodeJ 0 1
  | .beq rs1 rs2 imm4 => encodeB 0b1010 rs1 rs2 imm4
  | .bne rs1 rs2 imm4 => encodeB 0b1011 rs1 rs2 imm4
  | .bgt rs1 rs2 imm4 => encodeB 0b1100 rs1 rs2 imm4
  | .blt rs1 rs2 imm4 => encodeB 0b1101 rs1 rs2 imm4
  | .ld rd rs1 => encodeLS 0b10 rd rs1
  | .str rd rs1 => encodeLS 0b01 rd rs1
  | .shl rs1 imm6 => encodeS 0b00 rs1 imm6
  | .sal rs1 imm6 => encodeS 0b10 rs1 imm6
  | .shr rs1 imm6 => encodeS 0b01 rs1 imm6
  | .sar rs1 imm6 => encodeS 0b11 rs1 imm6

/-- What the host asks of the decoder: the instruction in the low `nbits` bits of `w`, one word with its bits
numbered as the table numbers them (R50), under the default `STRICT_UNUSED = false`. -/
def decodeTableWord (nbits w : Nat) : Option Instr :=
  match decode false (BitVec.ofNat 16 (w % 2 ^ nbits)) with
  | .ok i => some i
  | .error _ => none

/-- The table's mnemonic of an instruction. -/
def Instr.mnemonic : Instr → Mnemonic
  | .halt => .halt
  | .addr _ _ _ => .addr
  | .andr _ _ _ => .andr
  | .nandr _ _ _ => .nandr
  | .orr _ _ _ => .orr
  | .subr _ _ _ => .subr
  | .addi _ _ => .addi
  | .movu _ _ => .movu
  | .movl _ _ => .movl
  | .jmp _ => .jmp
  | .ret => .ret
  | .beq _ _ _ => .beq
  | .bne _ _ _ => .bne
  | .bgt _ _ _ => .bgt
  | .blt _ _ _ => .blt
  | .ld _ _ => .ld
  | .str _ _ => .str
  | .shl _ _ => .shl
  | .sal _ _ => .sal
  | .shr _ _ => .shr
  | .sar _ _ => .sar

/-- `(mask, match)` of each row of spec/opcode_table.json: a word is an instruction of the row exactly when
`w & mask = match` (30_encoding.md, how to read the table). -/
def Mnemonic.tableRow : Mnemonic → Word × Word
  | .halt => (0x000F, 0x0000)
  | .addr => (0x000F, 0x0001)
  | .andr => (0x000F, 0x0002)
  | .nandr => (0x000F, 0x0003)
  | .orr => (0x000F, 0x0004)
  | .subr => (0x000F, 0x0005)
  | .addi => (0x000F, 0x0006)
  | .movu => (0x000F, 0x0007)
  | .movl => (0x000F, 0x0008)
  | .jmp => (0x001F, 0x0009)
  | .ret => (0x001F, 0x0019)
  | .beq => (0x000F, 0x000A)
  | .bne => (0x000F, 0x000B)
  | .bgt => (0x000F, 0x000C)
  | .blt => (0x000F, 0x000D)
  | .ld => (0x030F, 0x020E)
  | .str => (0x030F, 0x010E)
  | .shl => (0x083F, 0x000F)
  | .sal => (0x083F, 0x002F)
  | .shr => (0x083F, 0x001F)
  | .sar => (0x083F, 0x003F)

/-- Whether a word belongs to a row of the opcode table. -/
def Mnemonic.matchesWord (m : Mnemonic) (w : Word) : Bool := w &&& m.tableRow.1 == m.tableRow.2

end Sys2Proof
end

