-- ==== Sys2Proof/Config.lean ====
section
/-! DEFINITION. The parameters of 00_scope.md R4 (fixed) and R5 (open). The model has no free value: once the
open parameters are given, the spec leaves no result of an instruction open. -/

namespace Sys2Proof

/-- MEMWORDS of R4: "1K 16-bit words of memory". -/
abbrev memWords : Nat := 1024

/-- `ADDR_MODE` (R5, 20_memory.md R33, D2): what an address of 1024 or more does. -/
inductive AddrMode where
  /-- the access raises `AddressOutOfRange` -/
  | fault
  /-- the access uses the low 10 bits of the address -/
  | wrap
  deriving DecidableEq, Repr

/-- `SAL_MODE` (R5, 45_shift_mode.md R117, D9): the bit-level result of `sal`. -/
inductive SalMode where
  /-- `sal` is `shl` -/
  | asShl
  /-- bit 15 is held and the other fifteen bits are shifted -/
  | keepSign
  deriving DecidableEq, Repr

/-- `IMAGE_BYTE_ORDER` (R5, 20_memory.md R35, D3): how a host's file of bytes maps to words. It concerns the
loader alone and no program can see it. -/
inductive ByteOrder where
  | big
  | little
  deriving DecidableEq, Repr

/-- The open parameters that a running machine consults. R5: "A model takes each as an argument"; `exec` and `step`
take a state and nothing else, so the argument travels in the state (log 1). -/
structure Config where
  addrMode : AddrMode
  salMode : SalMode
  /-- `STRICT_UNUSED` (R5, 30_encoding.md R69, D13): a set unused bit makes the word illegal -/
  strictUnused : Bool
  deriving DecidableEq, Repr

end Sys2Proof
end

