-- ==== Sys2Proof/Machine/Defaults.lean ====
section
/-! DEFINITION. The values the launch state takes where the spec gives a default or leaves the value to the model. -/

namespace Sys2Proof.Machine

/-- The defaults of 00_scope.md R5. DESIGN CHOICE (log 2). -/
def defaultConfig : Config := { addrMode := .fault, salMode := .keepSign, strictUnused := false }

/-- The entry point: "execution starts at word address 0" (10_state.md R27, 70_reset_and_hazards.md R161, the spec's
own choice D15; log 10). -/
def launchPc : Word := 0x0000

/-- What register `x<k>` holds in `State.reset`. R27 leaves it unspecified and forbids zero; one fixed non-zero value
for each register. DESIGN CHOICE, unsafe (log 3). -/
def launchWord (k : Nat) : Word := BitVec.ofNat 16 (0xA5A0 + k)

/-- What a memory word of a launch state holds where neither the image nor the host's data gives it a value. R27
leaves it unspecified and forbids zero. DESIGN CHOICE, unsafe (log 4). -/
def fillWord : Word := 0xA5A5

end Sys2Proof.Machine
end

