-- ==== Sys2Proof/Machine/State.lean ====
section
/-! DEFINITION. The state of the machine as plain data, why a step can stop, and the launch state. -/

namespace Sys2Proof.Machine

/-- The fourteen stored registers (10_state.md R10). x0 is a constant and x4 is `State.pc`: neither stands here. -/
structure Regs where
  /-- x1 -/
  ra : Word
  /-- x2 -/
  fp : Word
  /-- x3 -/
  sp : Word
  x5 : Word
  x6 : Word
  x7 : Word
  x8 : Word
  x9 : Word
  x10 : Word
  x11 : Word
  x12 : Word
  x13 : Word
  x14 : Word
  x15 : Word
  deriving DecidableEq, Repr

/-- The memory of 1024 words (20_memory.md R30): the words that differ from the fill of a launch state, as (word
address, word) pairs with rising addresses. The smallest addressable unit is the 16-bit word (R31), so a cell holds
a word (log 5). -/
abbrev Memory := List (Nat × Word)

/-- What a memory access is for (60_exceptions.md R141). -/
inductive AccessKind where
  | fetch
  | load
  | store
  deriving DecidableEq, Repr

/-- The terminal outcomes of a step that is not a normal one (R141). A faulting step writes nothing (R144). -/
inductive Fault where
  /-- F1, F4, F5: an address of 1024 or more under `ADDR_MODE = fault`, raised by the fetch of any step, by `ld` and
  by `str`. Safe: the spec's own fault (D2). -/
  | addressOutOfRange (kind : AccessKind) (address : Word)
  /-- F2: the word decodes to `Illegal`, raised by decode. Safe: the spec's own fault (D11, D12, D13). -/
  | illegalInstruction (pc insn : Word)
  /-- F3: the instruction would write x4 through a register field, raised at decode. Safe: the spec's own fault (D5). -/
  | writeToPC (pc insn : Word)
  deriving DecidableEq, Repr

/-- Why an instruction has no meaning. -/
inductive Refusal where
  /-- The instruction's arm of `exec` has no meaning yet. No arm of this model raises it. Safe. -/
  | notModelled (mnemonic : String)
  deriving DecidableEq, Repr

/-- The architectural state of 10_state.md R10 and, as the model's own field, the open parameters of 00_scope.md R5. -/
structure State where
  /-- x1 to x3 and x5 to x15 -/
  regs : Regs
  /-- the program counter, which is also register x4 (R17, R20) -/
  pc : Word
  /-- the 1024 words (R30) -/
  mem : Memory
  /-- set by `halt` (R23) -/
  halted : Bool
  /-- the open parameters: no state of the hardware, never changed by a step (log 1) -/
  cfg : Config
  deriving DecidableEq, Repr

/-- The registers of `State.reset` (log 3). -/
def Regs.reset : Regs where
  ra := launchWord 1
  fp := launchWord 2
  sp := launchWord 3
  x5 := launchWord 5
  x6 := launchWord 6
  x7 := launchWord 7
  x8 := launchWord 8
  x9 := launchWord 9
  x10 := launchWord 10
  x11 := launchWord 11
  x12 := launchWord 12
  x13 := launchWord 13
  x14 := launchWord 14
  x15 := launchWord 15

/-- The launch state of 10_state.md R27 before the host places an image: one member of the family that
`State.launch` gives for every choice of what R27 leaves unspecified. -/
def State.reset : State where
  regs := Regs.reset
  pc := launchPc
  mem := []
  halted := false
  cfg := defaultConfig

end Sys2Proof.Machine
end

