-- ==== Sys2Proof/Machine/Memory.lean ====
section
/-! DEFINITION. The memory as plain storage: reading and writing one word, and the canonical form. -/

namespace Sys2Proof.Machine

/-- What a word that is not listed reads as: the word that fills a launch state (log 4). Every word of the memory
has a value (20_memory.md R30), and every contents of the memory is some list. -/
def unlisted (_a : Nat) : Word := fillWord

/-- The word at a word address. -/
def Memory.read : Memory → Nat → Word
  | [], a => unlisted a
  | (b, v) :: m, a => if a = b then v else Memory.read m a

/-- Puts a cell in its place, dropping the old cell of the same address. -/
def Memory.insert (a : Nat) (v : Word) : Memory → Memory
  | [] => [(a, v)]
  | (b, u) :: m => if a < b then (a, v) :: (b, u) :: m else if a = b then (a, v) :: m else (b, u) :: Memory.insert a v m

/-- Stores a word: all 16 bits replaced, no other word changed (20_memory.md R34). A value equal to what the
address reads as when unlisted is stored by leaving the address unlisted, so that equal memories are equal lists. -/
def Memory.write (m : Memory) (a : Nat) (v : Word) : Memory :=
  if unlisted a = v then m.filter (fun c => c.1 != a) else Memory.insert a v m

/-- The canonical form: addresses strictly rising and inside the memory, no cell that says what an unlisted address
says anyway. -/
abbrev Memory.wf (m : Memory) : Prop :=
  m.Pairwise (fun c d => c.1 < d.1) ∧ ∀ c ∈ m, c.1 < memWords ∧ unlisted c.1 ≠ c.2

end Sys2Proof.Machine
end

