-- ==== Sys2Proof/Machine/Operands.lean ====
section
/-! DEFINITION. Immediates as operands and the arithmetic of the instructions on 16-bit values: every operand form
and every result computation of the spec. -/

namespace Sys2Proof.Machine

/-- `sext_16` of 00_scope.md R7, for the 8-bit, 10-bit and 4-bit immediates (30_encoding.md R61 to R63). -/
def sext {n : Nat} (imm : BitVec n) : Word := imm.signExtend 16

/-- The amount of a shift: `imm6` as an unsigned number, used exactly, never modulo 16 (45_shift_mode.md R115, D10). -/
def shiftAmount (imm6 : BitVec 6) : Nat := imm6.toNat

/-- The low 16 bits of the sum (40_register_mode.md R80, R81; D7). -/
def sum (a b : Word) : Word := a + b

/-- The low 16 bits of `a - b` (R85). -/
def difference (a b : Word) : Word := a - b

/-- R82. -/
def bitAnd (a b : Word) : Word := a &&& b

/-- R83. -/
def bitNand (a b : Word) : Word := ~~~(a &&& b)

/-- R84. -/
def bitOr (a b : Word) : Word := a ||| b

/-- `(imm8 << 8) | (a & 0x00FF)`: bits 15:8 replaced, bits 7:0 kept (41_immediate_mode.md R91, D8). -/
def withUpper (imm8 : BitVec 8) (a : Word) : Word := imm8 ++ a.extractLsb' 0 8

/-- `(a & 0xFF00) | imm8`: bits 7:0 replaced, bits 15:8 kept (R92, D8). -/
def withLower (imm8 : BitVec 8) (a : Word) : Word := a.extractLsb' 8 8 ++ imm8

/-- `a << n`: zero-fill from the right (R115). -/
def shiftLeft (a : Word) (n : Nat) : Word := a <<< n

/-- `a >>u n`: zero-fill from the left (R115). -/
def shiftRightLogical (a : Word) (n : Nat) : Word := a >>> n

/-- `a >>s n`: filled from the left with copies of bit 15 (R115). -/
def shiftRightArith (a : Word) (n : Nat) : Word := a.sshiftRight n

/-- The result of `sal` under each value of `SAL_MODE` (R117). -/
def shiftLeftArith (mode : SalMode) (a : Word) (n : Nat) : Word :=
  match mode with
  | .asShl => shiftLeft a n
  | .keepSign => (a &&& 0x8000) ||| (shiftLeft a n &&& 0x7FFF)

end Sys2Proof.Machine
end

