-- ==== Sys2Proof/Machine/Ops.lean ====
section
/-! DEFINITION. The named operations the meanings are written with: registers, the program counter, memory accesses,
the refused forms, and the front half of the instruction cycle (fetch and decode).

There is no exception to take and none to return from: no vector, no saved pc, no saved status, no mode
(60_exceptions.md R140, R144, R145). A fault is the whole of it: it ends the run and writes nothing. -/

namespace Sys2Proof.Machine

/-- What one step answers. -/
abbrev Result := Host.Outcome State Fault Refusal

/-- `x[i]` as a value (00_scope.md R7): x0 is zero (10_state.md R13), x4 is the address of the executing
instruction (R17, D4), every other register is its stored value. -/
def State.readReg (s : State) : Reg → Word
  | .x0 => 0
  | .ra => s.regs.ra
  | .fp => s.regs.fp
  | .sp => s.regs.sp
  | .pc => s.pc
  | .x5 => s.regs.x5
  | .x6 => s.regs.x6
  | .x7 => s.regs.x7
  | .x8 => s.regs.x8
  | .x9 => s.regs.x9
  | .x10 => s.regs.x10
  | .x11 => s.regs.x11
  | .x12 => s.regs.x12
  | .x13 => s.regs.x13
  | .x14 => s.regs.x14
  | .x15 => s.regs.x15

/-- A value stored in a general register; x0 and x4 are not stored here. -/
def Regs.set (g : Regs) (r : Reg) (v : Word) : Regs :=
  match r with
  | .x0 => g
  | .ra => { g with ra := v }
  | .fp => { g with fp := v }
  | .sp => { g with sp := v }
  | .pc => g
  | .x5 => { g with x5 := v }
  | .x6 => { g with x6 := v }
  | .x7 => { g with x7 := v }
  | .x8 => { g with x8 := v }
  | .x9 => { g with x9 := v }
  | .x10 => { g with x10 := v }
  | .x11 => { g with x11 := v }
  | .x12 => { g with x12 := v }
  | .x13 => { g with x13 := v }
  | .x14 => { g with x14 := v }
  | .x15 => { g with x15 := v }

/-- `x[i] <- v` (R7): a write to x0 is discarded (R14, D6). No meaning reaches it with x4 (R18). -/
def State.setReg (s : State) (r : Reg) (v : Word) : State := { s with regs := s.regs.set r v }

/-- `pc <- t`. -/
def State.setPc (s : State) (t : Word) : State := { s with pc := t }

/-- The memory replaced. -/
def State.setMem (s : State) (m : Memory) : State := { s with mem := m }

/-- `halted <- true` (R23). -/
def State.halt (s : State) : State := { s with halted := true }

/-- `next_pc`, the address of the following word, modulo 65536 (R22). -/
def State.nextPc (s : State) : Word := s.pc + 1

/-- `pc <- next_pc`. -/
def State.advance (s : State) : State := s.setPc s.nextPc

/-- The address an offset of `jmp` or of a taken branch leads to: relative to the instruction itself, modulo 65536
(R20, R22, D19). -/
def State.target {n : Nat} (s : State) (offset : BitVec n) : Word := s.pc + sext offset

/-- The memory word that a 16-bit address selects, if any (20_memory.md R33, R34). -/
def wordIndex (mode : AddrMode) (a : Word) : Option Nat :=
  if a.toNat < memWords then some a.toNat
  else match mode with
    | .fault => none
    | .wrap => some (a.toNat % memWords)

/-- `MemRead(a, 1)` (R34). -/
def State.memRead (s : State) (kind : AccessKind) (a : Word) : Except Fault Word :=
  match wordIndex s.cfg.addrMode a with
  | none => .error (.addressOutOfRange kind a)
  | some n => .ok (s.mem.read n)

/-- `MemWrite(a, 1, v)` (R34). -/
def State.memWrite (s : State) (a v : Word) : Except Fault State :=
  match wordIndex s.cfg.addrMode a with
  | none => .error (.addressOutOfRange .store a)
  | some n => .ok (s.setMem (s.mem.write n v))

/-- The register that an instruction writes through a register field (10_state.md R28). -/
def destField : Instr → Option Reg
  | .addr rd _ _ | .andr rd _ _ | .nandr rd _ _ | .orr rd _ _ | .subr rd _ _ => some rd
  | .addi rd _ | .movu rd _ | .movl rd _ => some rd
  | .ld rd _ => some rd
  | .shl rs1 _ | .sal rs1 _ | .shr rs1 _ | .sar rs1 _ => some rs1
  | .halt | .jmp _ | .ret | .beq _ _ _ | .bne _ _ _ | .bgt _ _ _ | .blt _ _ _ | .str _ _ => none

/-- The forms R18 refuses: x4 as the register written through a field. -/
def writesPc (i : Instr) : Bool := destField i == some .pc

/-- The refusal of R18 for an instruction `i` with destination `rd`: `WriteToPC` before anything else happens. The
fault names the word an assembler writes for `i`; a step names the word it fetched (`fetchDecode`, log 8). -/
def refusePc (i : Instr) (rd : Reg) (s : State) (otherwise : Result) : Result :=
  if rd = .pc then .fault (.writeToPC s.pc (encode i)) else otherwise

/-- The end of every instruction with a destination field: `x[rd] <- v; pc <- next_pc`. -/
def writeBack (i : Instr) (rd : Reg) (v : Word) (s : State) : Result :=
  refusePc i rd s (.next (s.setReg rd v).advance)

/-- Fetch, decode and the refused forms: steps 1 and 2 of the instruction cycle (R21), in the order in which their
faults are reported (60_exceptions.md R143). -/
def State.fetchDecode (s : State) : Except Fault Instr :=
  match s.memRead .fetch s.pc with
  | .error f => .error f
  | .ok insn =>
    match decode s.cfg.strictUnused insn with
    | .error _ => .error (.illegalInstruction s.pc insn)
    | .ok i => if writesPc i then .error (.writeToPC s.pc insn) else .ok i

/-- A machine that has executed `halt` has no further step: no register, no memory word and not `pc` changes again
(R21, R23, 46_halt_mode.md R125). The answer is the same state (log 7). -/
def stayHalted (s : State) : Result := .next s

/-- The state in which the next fetch finds `insn`: the word is placed where `pc` points (at word 0 with `pc` there, if
`pc` points nowhere), and the machine runs (log 6). -/
def State.placeAtFetch (s : State) (insn : Word) : State :=
  match wordIndex s.cfg.addrMode s.pc with
  | some n => { s with mem := s.mem.write n insn, halted := false }
  | none => { s with pc := 0, mem := s.mem.write 0 insn, halted := false }

end Sys2Proof.Machine
end

