-- ==== Sys2Proof/Machine/BranchMode.lean ====
section
/-! DEFINITION. Branch mode: beq, bne, bgt, blt (43_branch_mode.md). -/

namespace Sys2Proof.Machine

/-- The common behaviour of the B format (R100): only `pc` is written. -/
def branchMode (cond : Word → Word → Bool) (rs1 rs2 : Reg) (imm4 : BitVec 4) (s : State) : Result :=
  .next (s.setPc (if cond (s.readReg rs1) (s.readReg rs2) then s.target imm4 else s.nextPc))

/-- R101. -/
def execBeq (rs1 rs2 : Reg) (imm4 : BitVec 4) (s : State) : Result := branchMode condEqual rs1 rs2 imm4 s

/-- R102. -/
def execBne (rs1 rs2 : Reg) (imm4 : BitVec 4) (s : State) : Result := branchMode condNotEqual rs1 rs2 imm4 s

/-- R103. -/
def execBgt (rs1 rs2 : Reg) (imm4 : BitVec 4) (s : State) : Result := branchMode condGreater rs1 rs2 imm4 s

/-- R104. -/
def execBlt (rs1 rs2 : Reg) (imm4 : BitVec 4) (s : State) : Result := branchMode condLess rs1 rs2 imm4 s

end Sys2Proof.Machine
end

