-- ==== Sys2Proof/Machine/HaltMode.lean ====
section
/-! DEFINITION. Halt mode: halt (46_halt_mode.md). -/

namespace Sys2Proof.Machine

/-- `halted <- true`; `pc` keeps the address of the halt instruction (R125, D16). -/
def execHalt (s : State) : Result := .next s.halt

end Sys2Proof.Machine
end

