-- ==== Sys2Proof/Machine/ImmediateMode.lean ====
section
/-! DEFINITION. Immediate mode: addi, movu, movl (41_immediate_mode.md). -/

namespace Sys2Proof.Machine

/-- The common behaviour of the I format: `rd` is both read and written. -/
def immediateMode (i : Instr) (rd : Reg) (f : Word → Word) (s : State) : Result :=
  writeBack i rd (f (s.readReg rd)) s

/-- `x[rd] <- x[rd] + sext_16(imm8)` on all 16 bits (R90, C6). -/
def execAddi (rd : Reg) (imm8 : BitVec 8) (s : State) : Result :=
  immediateMode (.addi rd imm8) rd (fun a => sum a (sext imm8)) s

/-- Bits 15:8 of `x[rd]` become `imm8` (R91). -/
def execMovu (rd : Reg) (imm8 : BitVec 8) (s : State) : Result :=
  immediateMode (.movu rd imm8) rd (withUpper imm8) s

/-- Bits 7:0 of `x[rd]` become `imm8` (R92). -/
def execMovl (rd : Reg) (imm8 : BitVec 8) (s : State) : Result :=
  immediateMode (.movl rd imm8) rd (withLower imm8) s

end Sys2Proof.Machine
end

