-- ==== Sys2Proof/Machine/JumpMode.lean ====
section
/-! DEFINITION. Jump mode: jmp, ret (42_jump_mode.md). -/

namespace Sys2Proof.Machine

/-- `x[1] <- pc + 1; pc <- pc + sext_16(imm10)`, the old `pc` on both right sides (R95). -/
def execJmp (imm10 : BitVec 10) (s : State) : Result :=
  .next ((s.setReg .ra s.nextPc).setPc (s.target imm10))

/-- `pc <- x[1]` (R96). -/
def execRet (s : State) : Result := .next (s.setPc (s.readReg .ra))

end Sys2Proof.Machine
end

