-- ==== Sys2Proof/Machine/LoadStoreMode.lean ====
section
/-! DEFINITION. Load/Store mode: ld, str (44_load_store_mode.md). -/

namespace Sys2Proof.Machine

/-- The address of `ld`: the value of the RS1 register (R110). -/
def loadAddress (rs1 : Reg) (s : State) : Word := s.readReg rs1

/-- The address of `str`: the value of the RD register (R111, C13). -/
def storeAddress (rd : Reg) (s : State) : Word := s.readReg rd

/-- `x[rd] <- MemRead(x[rs1], 1)`; the refusal of x4 comes before the access (R110, 60_exceptions.md R143). -/
def execLd (rd rs1 : Reg) (s : State) : Result :=
  refusePc (.ld rd rs1) rd s <|
    match s.memRead .load (loadAddress rs1 s) with
    | .error f => .fault f
    | .ok v => .next (s.setReg rd v).advance

/-- `MemWrite(x[rd], 1, x[rs1])` (R111). -/
def execStr (rd rs1 : Reg) (s : State) : Result :=
  match s.memWrite (storeAddress rd s) (s.readReg rs1) with
  | .error f => .fault f
  | .ok t => .next t.advance

end Sys2Proof.Machine
end

