-- ==== Sys2Proof/Machine/RegisterMode.lean ====
section
/-! DEFINITION. Register mode: addr, andr, nandr, orr, subr (40_register_mode.md). -/

namespace Sys2Proof.Machine

/-- The common behaviour of the R format (R80): both operands are read, one result is written to `rd`. -/
def registerMode (i : Instr) (rd rs1 rs2 : Reg) (f : Word → Word → Word) (s : State) : Result :=
  writeBack i rd (f (s.readReg rs1) (s.readReg rs2)) s

/-- `x[rd] <- x[rs1] + x[rs2]` (R81). -/
def execAddr (rd rs1 rs2 : Reg) (s : State) : Result := registerMode (.addr rd rs1 rs2) rd rs1 rs2 sum s

/-- `x[rd] <- x[rs1] & x[rs2]` (R82). -/
def execAndr (rd rs1 rs2 : Reg) (s : State) : Result := registerMode (.andr rd rs1 rs2) rd rs1 rs2 bitAnd s

/-- `x[rd] <- ~(x[rs1] & x[rs2])` (R83). -/
def execNandr (rd rs1 rs2 : Reg) (s : State) : Result := registerMode (.nandr rd rs1 rs2) rd rs1 rs2 bitNand s

/-- `x[rd] <- x[rs1] | x[rs2]` (R84). -/
def execOrr (rd rs1 rs2 : Reg) (s : State) : Result := registerMode (.orr rd rs1 rs2) rd rs1 rs2 bitOr s

/-- `x[rd] <- x[rs1] - x[rs2]` (R85). -/
def execSubr (rd rs1 rs2 : Reg) (s : State) : Result := registerMode (.subr rd rs1 rs2) rd rs1 rs2 difference s

end Sys2Proof.Machine
end

