-- ==== Sys2Proof/Machine/ShiftMode.lean ====
section
/-! DEFINITION. Shift mode: shl, sal, shr, sar (45_shift_mode.md). -/

namespace Sys2Proof.Machine

/-- The common behaviour of the S format (R115): `rs1` is both read and written. An amount with bit 5 set has no
instruction: its word is `Illegal` (30_encoding.md R68; log 9). -/
def shiftMode (i : Instr) (rs1 : Reg) (imm6 : BitVec 6) (f : Word → Nat → Word) (s : State) : Result :=
  if imm6.msb then .fault (.illegalInstruction s.pc (encode i))
  else writeBack i rs1 (f (s.readReg rs1) (shiftAmount imm6)) s

/-- `x[rs1] <- x[rs1] << n` (R116). -/
def execShl (rs1 : Reg) (imm6 : BitVec 6) (s : State) : Result := shiftMode (.shl rs1 imm6) rs1 imm6 shiftLeft s

/-- The arithmetic left shift under the machine's `SAL_MODE` (R117). -/
def execSal (rs1 : Reg) (imm6 : BitVec 6) (s : State) : Result :=
  shiftMode (.sal rs1 imm6) rs1 imm6 (shiftLeftArith s.cfg.salMode) s

/-- `x[rs1] <- x[rs1] >>u n` (R118). -/
def execShr (rs1 : Reg) (imm6 : BitVec 6) (s : State) : Result :=
  shiftMode (.shr rs1 imm6) rs1 imm6 shiftRightLogical s

/-- `x[rs1] <- x[rs1] >>s n` (R119). -/
def execSar (rs1 : Reg) (imm6 : BitVec 6) (s : State) : Result :=
  shiftMode (.sar rs1 imm6) rs1 imm6 shiftRightArith s

end Sys2Proof.Machine
end

