-- ==== Sys2Proof/Machine/Dispatch.lean ====
section
/-! DEFINITION. One arm per instruction (step 3 of the instruction cycle, 10_state.md R21). -/

namespace Sys2Proof.Machine

def exec (i : Instr) (s : State) : Host.Outcome State Fault Refusal :=
  match i with
  | .halt => Sys2Proof.Machine.execHalt s
  | .addr rd rs1 rs2 => Sys2Proof.Machine.execAddr rd rs1 rs2 s
  | .andr rd rs1 rs2 => Sys2Proof.Machine.execAndr rd rs1 rs2 s
  | .nandr rd rs1 rs2 => Sys2Proof.Machine.execNandr rd rs1 rs2 s
  | .orr rd rs1 rs2 => Sys2Proof.Machine.execOrr rd rs1 rs2 s
  | .subr rd rs1 rs2 => Sys2Proof.Machine.execSubr rd rs1 rs2 s
  | .addi rd imm8 => Sys2Proof.Machine.execAddi rd imm8 s
  | .movu rd imm8 => Sys2Proof.Machine.execMovu rd imm8 s
  | .movl rd imm8 => Sys2Proof.Machine.execMovl rd imm8 s
  | .jmp imm10 => Sys2Proof.Machine.execJmp imm10 s
  | .ret => Sys2Proof.Machine.execRet s
  | .beq rs1 rs2 imm4 => Sys2Proof.Machine.execBeq rs1 rs2 imm4 s
  | .bne rs1 rs2 imm4 => Sys2Proof.Machine.execBne rs1 rs2 imm4 s
  | .bgt rs1 rs2 imm4 => Sys2Proof.Machine.execBgt rs1 rs2 imm4 s
  | .blt rs1 rs2 imm4 => Sys2Proof.Machine.execBlt rs1 rs2 imm4 s
  | .ld rd rs1 => Sys2Proof.Machine.execLd rd rs1 s
  | .str rd rs1 => Sys2Proof.Machine.execStr rd rs1 s
  | .shl rs1 imm6 => Sys2Proof.Machine.execShl rs1 imm6 s
  | .sal rs1 imm6 => Sys2Proof.Machine.execSal rs1 imm6 s
  | .shr rs1 imm6 => Sys2Proof.Machine.execShr rs1 imm6 s
  | .sar rs1 imm6 => Sys2Proof.Machine.execSar rs1 imm6 s

end Sys2Proof.Machine
end

