-- ==== Sys2Proof/Machine/Step.lean ====
section
/-! DEFINITION. One step of the machine: the instruction cycle of 10_state.md R21. -/

namespace Sys2Proof.Machine

/-- Fetch, decode, refuse the forms of R18, execute. A halted machine stays as it is. -/
def step (s : State) : Host.Outcome State Fault Refusal :=
  if s.halted then stayHalted s
  else match s.fetchDecode with
    | .error f => .fault f
    | .ok i => exec i s

/-- `s` with the instruction in the low `nbits` bits of `w` where the next step fetches (log 6). -/
def State.withFetchWord (s : State) (nbits w : Nat) : State :=
  s.placeAtFetch (BitVec.ofNat 16 (w % 2 ^ nbits))

end Sys2Proof.Machine
end

