-- ==== Sys2Proof/Machine/Pseudo.lean ====
section
/-! DEFINITION. The pseudo-instructions push, pop, mov (47_pseudoinstructions.md): assembler expansions, with no
encoding of their own (30_encoding.md R76). -/

namespace Sys2Proof.Machine

/-- The real instructions a pseudo-instruction stands for (R128, R129, R130). -/
def expand : Pseudo → List Instr
  | .push rs1 => [.addi .sp (-1), .str .sp rs1]
  | .pop rs1 => [.ld rs1 .sp, .addi .sp 1]
  | .mov rd rs1 => [.addr rd rs1 .x0]

/-- The instructions of a list one after another, stopping at the first that gives no next state. -/
def execList : List Instr → State → Result
  | [], s => .next s
  | i :: rest, s =>
    match exec i s with
    | .next t => execList rest t
    | .fault f => .fault f
    | .refused r => .refused r

/-- The net effect of a pseudo-instruction (R128, R129, R130). -/
def execPseudo (p : Pseudo) (s : State) : Result := execList (expand p) s

end Sys2Proof.Machine
end

