-- ==== Sys2Proof/Machine/Assembler.lean ====
section
/-! DEFINITION. The assembler's side of 30_encoding.md section 6 (R71 to R76): the form of a line, operand order,
ranges and labels. It constrains what a listing means, not the machine (D20). -/

namespace Sys2Proof.Machine

/-- An operand as it is written (R71, R72). -/
inductive Operand where
  | reg (r : Reg)
  | imm (v : Int)
  | label (name : String)
  deriving DecidableEq, Repr

/-- What stands in the mnemonic's place: an instruction of the table or a pseudo-instruction (R76). -/
inductive Op where
  | real (m : Mnemonic)
  | push
  | pop
  | mov
  deriving DecidableEq, Repr

/-- `label: mnemonic operand, operand, operand`, the label optional (R71). -/
structure Line where
  label : Option String
  op : Op
  operands : List Operand
  deriving DecidableEq, Repr

/-- An immediate in its range, as the low `n` bits of its two's complement value; any other is rejected (R74, D20). -/
def fit (n : Nat) (lo hi v : Int) : Option (BitVec n) :=
  if lo ≤ v ∧ v ≤ hi then some (BitVec.ofInt n v) else none

/-- The address of a label. -/
def labelAddress (name : String) : List (String × Nat) → Option Nat
  | [] => none
  | (other, a) :: rest => if name = other then some a else labelAddress name rest

/-- `offset = address(label) - address(this instruction)`, rejected outside the field's range (R73). -/
def labelOffset (n : Nat) (lo hi : Int) (labels : List (String × Nat)) (here : Nat) (name : String) :
    Option (BitVec n) :=
  match labelAddress name labels with
  | none => none
  | some a => fit n lo hi ((a : Int) - (here : Int))

/-- The offset of a branch: -8 to 7 words. -/
def branchOffset (labels : List (String × Nat)) (here : Nat) (name : String) : Option (BitVec 4) :=
  labelOffset 4 (-8) 7 labels here name

/-- The offset of `jmp`: -512 to 511 words. -/
def jumpOffset (labels : List (String × Nat)) (here : Nat) (name : String) : Option (BitVec 10) :=
  labelOffset 10 (-512) 511 labels here name

/-- The instructions of one line, its operands in the order of R75; `none` rejects the line. -/
def assembleLine (labels : List (String × Nat)) (here : Nat) (line : Line) : Option (List Instr) :=
  match line.op, line.operands with
  | .real .halt, [] => some [.halt]
  | .real .addr, [.reg rd, .reg rs1, .reg rs2] => some [.addr rd rs1 rs2]
  | .real .andr, [.reg rd, .reg rs1, .reg rs2] => some [.andr rd rs1 rs2]
  | .real .nandr, [.reg rd, .reg rs1, .reg rs2] => some [.nandr rd rs1 rs2]
  | .real .orr, [.reg rd, .reg rs1, .reg rs2] => some [.orr rd rs1 rs2]
  | .real .subr, [.reg rd, .reg rs1, .reg rs2] => some [.subr rd rs1 rs2]
  | .real .addi, [.reg rd, .imm v] => (fit 8 (-128) 127 v).map fun k => [.addi rd k]
  | .real .movu, [.reg rd, .imm v] => (fit 8 (-128) 255 v).map fun k => [.movu rd k]
  | .real .movl, [.reg rd, .imm v] => (fit 8 (-128) 255 v).map fun k => [.movl rd k]
  | .real .jmp, [.label l] => (jumpOffset labels here l).map fun k => [.jmp k]
  | .real .ret, [] => some [.ret]
  | .real .beq, [.reg rs1, .reg rs2, .label l] => (branchOffset labels here l).map fun k => [.beq rs1 rs2 k]
  | .real .bne, [.reg rs1, .reg rs2, .label l] => (branchOffset labels here l).map fun k => [.bne rs1 rs2 k]
  | .real .bgt, [.reg rs1, .reg rs2, .label l] => (branchOffset labels here l).map fun k => [.bgt rs1 rs2 k]
  | .real .blt, [.reg rs1, .reg rs2, .label l] => (branchOffset labels here l).map fun k => [.blt rs1 rs2 k]
  | .real .ld, [.reg rd, .reg rs1] => some [.ld rd rs1]
  | .real .str, [.reg rd, .reg rs1] => some [.str rd rs1]
  | .real .shl, [.reg rs1, .imm v] => (fit 6 0 31 v).map fun k => [.shl rs1 k]
  | .real .sal, [.reg rs1, .imm v] => (fit 6 0 31 v).map fun k => [.sal rs1 k]
  | .real .shr, [.reg rs1, .imm v] => (fit 6 0 31 v).map fun k => [.shr rs1 k]
  | .real .sar, [.reg rs1, .imm v] => (fit 6 0 31 v).map fun k => [.sar rs1 k]
  | .push, [.reg rs1] => some (expand (.push rs1))
  | .pop, [.reg rs1] => some (expand (.pop rs1))
  | .mov, [.reg rd, .reg rs1] => some (expand (.mov rd rs1))
  | _, _ => none

/-- How many words a line occupies (R50, R128 to R130). -/
def Op.words : Op → Nat
  | .push | .pop => 2
  | .mov | .real _ => 1

/-- The labels of a listing with their addresses; a label that is defined twice is rejected (log 28). -/
def labelTable (here : Nat) : List Line → Option (List (String × Nat))
  | [] => some []
  | line :: rest =>
    match labelTable (here + line.op.words) rest, line.label with
    | none, _ => none
    | some t, none => some t
    | some t, some name => if (labelAddress name t).isSome then none else some ((name, here) :: t)

/-- The lines of a listing from an address on. -/
def assembleFrom (labels : List (String × Nat)) (here : Nat) : List Line → Option (List Instr)
  | [] => some []
  | line :: rest =>
    match assembleLine labels here line, assembleFrom labels (here + line.op.words) rest with
    | some is, some more => some (is ++ more)
    | _, _ => none

/-- A listing as instructions from word 0 on, or a rejection. -/
def assemble (lines : List Line) : Option (List Instr) :=
  match labelTable 0 lines with
  | none => none
  | some labels => assembleFrom labels 0 lines

/-- The register names and the qualifiers of Table 1 (R72, 10_state.md R12). -/
def regNames : List (String × Reg) :=
  [("x0", .x0), ("x1", .ra), ("x2", .fp), ("x3", .sp), ("x4", .pc), ("x5", .x5), ("x6", .x6), ("x7", .x7),
   ("x8", .x8), ("x9", .x9), ("x10", .x10), ("x11", .x11), ("x12", .x12), ("x13", .x13), ("x14", .x14),
   ("x15", .x15), ("ra", .ra), ("fp", .fp), ("sp", .sp), ("pc", .pc)]

/-- The 24 mnemonics. -/
def opNames : List (String × Op) :=
  [("halt", .real .halt), ("addr", .real .addr), ("andr", .real .andr), ("nandr", .real .nandr), ("orr", .real .orr),
   ("subr", .real .subr), ("addi", .real .addi), ("movu", .real .movu), ("movl", .real .movl), ("jmp", .real .jmp),
   ("ret", .real .ret), ("beq", .real .beq), ("bne", .real .bne), ("bgt", .real .bgt), ("blt", .real .blt)] ++
  [("ld", .real .ld), ("str", .real .str), ("shl", .real .shl), ("sal", .real .sal), ("shr", .real .shr),
   ("sar", .real .sar), ("push", .push), ("pop", .pop), ("mov", .mov)]

/-- The text cut at every occurrence of a character. -/
def cutAt (c : Char) : List Char → List (List Char)
  | [] => [[]]
  | x :: xs =>
    if x = c then [] :: cutAt c xs
    else match cutAt c xs with
      | [] => [[x]]
      | piece :: rest => (x :: piece) :: rest

/-- Without the spaces at either end. -/
def trimSpaces (t : List Char) : List Char :=
  ((t.dropWhile (· == ' ')).reverse.dropWhile (· == ' ')).reverse

/-- A decimal number without a sign. -/
def readDigits (acc : Nat) : List Char → Option Nat
  | [] => some acc
  | c :: cs => if c.isDigit then readDigits (10 * acc + (c.toNat - '0'.toNat)) cs else none

/-- A decimal integer with an optional minus sign (R71). -/
def readInt : List Char → Option Int
  | [] => none
  | '-' :: c :: cs => (readDigits 0 (c :: cs)).map fun n => -(n : Int)
  | c :: cs => (readDigits 0 (c :: cs)).map fun n => (n : Int)

/-- A label's name: a letter, then letters and digits (log 28). -/
def readName : List Char → Option String
  | [] => none
  | c :: cs => if c.isAlpha && cs.all Char.isAlphanum then some (String.ofList (c :: cs)) else none

/-- A register, an integer or a label, in that order of preference. -/
def readOperand (t : List Char) : Option Operand :=
  match regNames.lookup (String.ofList t), readInt t, readName t with
  | some r, _, _ => some (.reg r)
  | none, some v, _ => some (.imm v)
  | none, none, some name => some (.label name)
  | none, none, none => none

/-- A mnemonic, a space, and the operands separated by commas. -/
def readBody (label : Option String) (text : List Char) : Option Line :=
  let t := trimSpaces text
  let operandText := trimSpaces (t.dropWhile (· != ' '))
  match opNames.lookup (String.ofList (t.takeWhile (· != ' '))) with
  | none => none
  | some op =>
    if operandText.isEmpty then some ⟨label, op, []⟩
    else ((cutAt ',' operandText).mapM fun piece => readOperand (trimSpaces piece)).map fun os => ⟨label, op, os⟩

/-- One line of assembly (R71). -/
def readLine (text : List Char) : Option Line :=
  match cutAt ':' text with
  | [body] => readBody none body
  | [name, body] =>
    match readName (trimSpaces name) with
    | none => none
    | some l => readBody (some l) body
  | _ => none

/-- A listing, one line after another, blank lines left out. -/
def readListing (text : String) : Option (List Line) :=
  ((cutAt '\n' text.toList).filter fun t => !(trimSpaces t).isEmpty).mapM readLine

/-- The machine code of a listing. -/
def assembleText (text : String) : Option (List Word) :=
  match readListing text with
  | none => none
  | some lines => (assemble lines).map fun is => is.map encode

end Sys2Proof.Machine
end

