-- ==== Sys2Proof/Machine/Launch.lean ====
section
/-! DEFINITION. What the host does before a run (70_reset_and_hazards.md R160, R161, R166): the launch states of
10_state.md R27 and the placing of a program image. -/

namespace Sys2Proof.Machine

/-- Puts the words of an image into memory from a word address on. -/
def loadImage (base : Nat) : List Word → Memory → Memory
  | [], m => m
  | w :: ws, m => loadImage (base + 1) ws (m.write base w)

/-- A launch state: `pc = 0`, not halted, the image at word 0 (R27, R161, R166), and ANY parameters, registers and
other memory words: "a model must treat the value as arbitrary". An image or data outside the 1024 words is refused
(log 6). `State.reset` is one launch state, with no image. -/
def State.launch (cfg : Config) (regs : Regs) (data : Memory) (image : List Word) : Option State :=
  if image.length ≤ memWords ∧ data.wf then
    some { regs := regs, pc := launchPc, mem := loadImage 0 image data, halted := false, cfg := cfg }
  else none

/-- Two bytes of a host's image file as one word (`IMAGE_BYTE_ORDER`, 20_memory.md R35). -/
def wordOfBytes (order : ByteOrder) (first second : Byte) : Word :=
  match order with
  | .big => first ++ second
  | .little => second ++ first

/-- A host's file of bytes as an image of words (R35, R166); a file with an odd number of bytes is refused (log 6). -/
def imageOfBytes (order : ByteOrder) : List Byte → Option (List Word)
  | [] => some []
  | [_] => none
  | a :: b :: rest => (imageOfBytes order rest).map (wordOfBytes order a b :: ·)

end Sys2Proof.Machine
end

