-- ==== Sys2Proof/Safety.lean ====
section
/-! DEFINITION. The terms the statements use: what a step left unchanged, how a run ends, and the invariant. -/

namespace Sys2Proof.Machine

/-- Every memory word reads as before. -/
def SameMemory (s t : State) : Prop := ∀ a, t.mem.read a = s.mem.read a

/-- Every memory word but the one at word address `n` reads as before. -/
def SameMemoryBut (n : Nat) (s t : State) : Prop := ∀ a, a ≠ n → t.mem.read a = s.mem.read a

/-- Every register but the program counter reads as before. -/
def SameRegisters (s t : State) : Prop := ∀ r, r ≠ .pc → t.readReg r = s.readReg r

/-- Every register but the program counter and `rd` reads as before. -/
def SameRegistersBut (rd : Reg) (s t : State) : Prop := ∀ r, r ≠ .pc → r ≠ rd → t.readReg r = s.readReg r

/-- Neither the halted flag nor the parameters changed. -/
def SameControl (s t : State) : Prop := t.halted = s.halted ∧ t.cfg = s.cfg

/-- `pc <- next_pc` (10_state.md R22). -/
def Advanced (s t : State) : Prop := t.pc.toNat = (s.pc.toNat + 1) % 65536

/-- The whole effect of an instruction that ends with `x[rd] <- v; pc <- next_pc`: a result for x0 is dropped
(10_state.md R13, R14), and nothing else changes. -/
def WritesRegister (rd : Reg) (v : Word) (s t : State) : Prop :=
  t.readReg rd = (if rd = .x0 then 0 else v) ∧ SameRegistersBut rd s t ∧ SameMemory s t ∧ SameControl s t ∧
    Advanced s t

/-- The whole effect of an instruction that only sets `pc`. -/
def OnlySetsPc (s t : State) : Prop := SameRegisters s t ∧ SameMemory s t ∧ SameControl s t

/-- The registers an instruction reads, as the table of 10_state.md R28 lists them. -/
def tableReads : Instr → List Reg
  | .addr _ rs1 rs2 | .andr _ rs1 rs2 | .nandr _ rs1 rs2 | .orr _ rs1 rs2 | .subr _ rs1 rs2 => [rs1, rs2]
  | .addi rd _ | .movu rd _ | .movl rd _ => [rd]
  | .jmp _ => []
  | .ret => [.ra]
  | .beq rs1 rs2 _ | .bne rs1 rs2 _ | .bgt rs1 rs2 _ | .blt rs1 rs2 _ => [rs1, rs2]
  | .ld _ rs1 => [rs1]
  | .str rd rs1 => [rs1, rd]
  | .shl rs1 _ | .sal rs1 _ | .shr rs1 _ | .sar rs1 _ => [rs1]
  | .halt => []

/-- The registers other than `pc` an instruction writes, as the table of R28 lists them. -/
def tableWrites : Instr → List Reg
  | .addr rd _ _ | .andr rd _ _ | .nandr rd _ _ | .orr rd _ _ | .subr rd _ _ => [rd]
  | .addi rd _ | .movu rd _ | .movl rd _ => [rd]
  | .jmp _ => [.ra]
  | .ld rd _ => [rd]
  | .shl rs1 _ | .sal rs1 _ | .shr rs1 _ | .sar rs1 _ => [rs1]
  | .ret | .beq _ _ _ | .bne _ _ _ | .bgt _ _ _ | .blt _ _ _ | .str _ _ | .halt => []

/-- The instructions that read memory (R28). -/
def tableReadsMemory : Instr → Bool
  | .ld _ _ => true
  | .halt | .addr _ _ _ | .andr _ _ _ | .nandr _ _ _ | .orr _ _ _ | .subr _ _ _ | .addi _ _ | .movu _ _ | .movl _ _
  | .jmp _ | .ret | .beq _ _ _ | .bne _ _ _ | .bgt _ _ _ | .blt _ _ _ | .str _ _ | .shl _ _ | .sal _ _ | .shr _ _
  | .sar _ _ => false

/-- The instructions that write memory (R28). -/
def tableWritesMemory : Instr → Bool
  | .str _ _ => true
  | .halt | .addr _ _ _ | .andr _ _ _ | .nandr _ _ _ | .orr _ _ _ | .subr _ _ _ | .addi _ _ | .movu _ _ | .movl _ _
  | .jmp _ | .ret | .beq _ _ _ | .bne _ _ _ | .bgt _ _ _ | .blt _ _ _ | .ld _ _ | .shl _ _ | .sal _ _ | .shr _ _
  | .sar _ _ => false

/-- `k` steps, stopping at the first fault: what `Host.Core.run` computes for this machine. -/
def runSteps : Nat → State → Result
  | 0, s => .next s
  | k + 1, s =>
    match step s with
    | .next t => runSteps k t
    | .fault f => .fault f
    | .refused r => .refused r

/-- The successful end of a run (70_reset_and_hazards.md R165): some number of steps leads to the halted state `t`. -/
def HaltsIn (s t : State) : Prop := ∃ k, runSteps k s = .next t ∧ t.halted = true

/-- The run ends in a fault (R165). -/
def FaultsWith (s : State) (f : Fault) : Prop := ∃ k, runSteps k s = .fault f

/-- The run goes on for ever (R165): after any number of steps the machine is neither faulted nor halted. -/
def NeverEnds (s : State) : Prop := ∀ k, ∃ t, runSteps k s = .next t ∧ t.halted = false

/-- A safe run: no step of it faults. -/
def Safe (s : State) : Prop := ∀ k, ∃ t, runSteps k s = .next t

/-- The invariant of the state: its memory is in canonical form, with every cell inside the 1024 words. -/
def State.Inv (s : State) : Prop := s.mem.wf

end Sys2Proof.Machine
end

