-- ==== Sys2Proof/Certificates/Slice0/Obligations.lean ====
section
/-! DEFINITION. The statements for the provers. Each docstring names the spec's rule or, where a clause rests on a
choice (the spec's own decision D<n> of 92_eei_decisions.md, or the model's), the decision and the log entry. -/

open Sys2Proof Sys2Proof.Machine

/-! ### Launch -/

/-- 10_state.md R27: `pc = 0`, not halted, x0 zero. The MODEL's choices beside it: the parameters at the defaults of
00_scope.md R5 (log 2), the values of the registers (log 3), the word that fills the memory (log 4), the entry point
the spec's D15 (log 10). -/
def Obligations.ResetIsTheChosenLaunchState : Prop :=
  State.reset.pc = 0 ∧ State.reset.halted = false ∧ State.reset.readReg .x0 = 0 ∧
  State.reset.cfg = { addrMode := .fault, salMode := .keepSign, strictUnused := false } ∧
  (∀ a, State.reset.mem.read a = 0xA5A5) ∧
  ∀ r : Reg, r ≠ .x0 → r ≠ .pc → (State.reset.readReg r).toNat = 0xA5A0 + r.field.toNat

/-- The memory of the reset state is in canonical form (the model's own form, log 5). -/
def Obligations.ResetSatisfiesInvariant : Prop := State.reset.Inv

/-- 10_state.md R27, 70_reset_and_hazards.md R160, R161, R166 (the spec's D15, D23; log 6, log 10): for ANY parameters,
registers and other memory words, an image that fits is loaded at word 0, the machine starts at word 0, not halted,
and every word outside the image keeps the value the host gave it; every contents of the memory outside the image is
such a choice of data ("Any 16-bit value each"). -/
def Obligations.LaunchAdmitsAnyRegistersAndMemory : Prop :=
  (∀ (cfg : Config) (regs : Regs) (data : Memory) (image : List Word), image.length ≤ 1024 → data.wf →
    ∃ s, State.launch cfg regs data image = some s ∧ s.pc = 0 ∧ s.halted = false ∧ s.regs = regs ∧ s.cfg = cfg ∧
      (∀ a, a < image.length → some (s.mem.read a) = image[a]?) ∧
      (∀ a, image.length ≤ a → s.mem.read a = data.read a) ∧ s.Inv) ∧
  ∀ contents : Nat → Word, ∃ data : Memory, data.wf ∧ ∀ a, a < 1024 → data.read a = contents a

/-! ### Register mode: one result in `rd`, `pc` advanced, nothing else (x0 drops the result: D6, log 13; x4 reads as
the instruction's address: D4, log 12; x4 as `rd`: `FormsThatWriteX4Fault`) -/

/-- 40_register_mode.md, addr: the low 16 bits of the sum (the wrap is the spec's D7, log 14). -/
def Obligations.AddrWritesLowBitsOfSum : Prop :=
  ∀ (s : State) (rd rs1 rs2 : Reg), rd ≠ .pc → ∃ t v, exec (.addr rd rs1 rs2) s = .next t ∧
    v.toNat = ((s.readReg rs1).toNat + (s.readReg rs2).toNat) % 65536 ∧ WritesRegister rd v s t

/-- 40_register_mode.md, andr: bit i is 1 exactly when bit i of both operands is 1. -/
def Obligations.AndrWritesBitwiseAnd : Prop :=
  ∀ (s : State) (rd rs1 rs2 : Reg), rd ≠ .pc → ∃ t v, exec (.andr rd rs1 rs2) s = .next t ∧
    (∀ k, k < 16 → (v.getLsbD k = true ↔ (s.readReg rs1).getLsbD k = true ∧ (s.readReg rs2).getLsbD k = true)) ∧
    WritesRegister rd v s t

/-- 40_register_mode.md, nandr: bit i is 0 exactly when bit i of both operands is 1. -/
def Obligations.NandrWritesBitwiseNand : Prop :=
  ∀ (s : State) (rd rs1 rs2 : Reg), rd ≠ .pc → ∃ t v, exec (.nandr rd rs1 rs2) s = .next t ∧
    (∀ k, k < 16 → (v.getLsbD k = false ↔ (s.readReg rs1).getLsbD k = true ∧ (s.readReg rs2).getLsbD k = true)) ∧
    WritesRegister rd v s t

/-- 40_register_mode.md, orr: bit i is 1 exactly when bit i of at least one operand is 1. -/
def Obligations.OrrWritesBitwiseOr : Prop :=
  ∀ (s : State) (rd rs1 rs2 : Reg), rd ≠ .pc → ∃ t v, exec (.orr rd rs1 rs2) s = .next t ∧
    (∀ k, k < 16 → (v.getLsbD k = true ↔ (s.readReg rs1).getLsbD k = true ∨ (s.readReg rs2).getLsbD k = true)) ∧
    WritesRegister rd v s t

/-- 40_register_mode.md, subr: the low 16 bits of `x[rs1] - x[rs2]` (the wrap is the spec's D7, log 14). -/
def Obligations.SubrWritesLowBitsOfDifference : Prop :=
  ∀ (s : State) (rd rs1 rs2 : Reg), rd ≠ .pc → ∃ t v, exec (.subr rd rs1 rs2) s = .next t ∧
    v.toNat = ((s.readReg rs1).toNat + (65536 - (s.readReg rs2).toNat)) % 65536 ∧ WritesRegister rd v s t

/-! ### Immediate mode -/

/-- 41_immediate_mode.md, addi: the sign-extended immediate added to all 16 bits (C6; the wrap is D7, log 14). -/
def Obligations.AddiAddsSignedImmediate : Prop :=
  ∀ (s : State) (rd : Reg) (imm8 : BitVec 8), rd ≠ .pc → ∃ t v, exec (.addi rd imm8) s = .next t ∧
    (v.toNat : Int) = ((s.readReg rd).toNat + imm8.toInt) % 65536 ∧ WritesRegister rd v s t

/-- 41_immediate_mode.md, movu: the upper byte becomes the immediate; the lower byte is kept (the spec's D8, log 15). -/
def Obligations.MovuReplacesUpperByte : Prop :=
  ∀ (s : State) (rd : Reg) (imm8 : BitVec 8), rd ≠ .pc → ∃ t v, exec (.movu rd imm8) s = .next t ∧
    v.toNat = imm8.toNat * 256 + (s.readReg rd).toNat % 256 ∧ WritesRegister rd v s t

/-- 41_immediate_mode.md, movl: the lower byte becomes the immediate; the upper byte is kept (the spec's D8, log 15). -/
def Obligations.MovlReplacesLowerByte : Prop :=
  ∀ (s : State) (rd : Reg) (imm8 : BitVec 8), rd ≠ .pc → ∃ t v, exec (.movl rd imm8) s = .next t ∧
    v.toNat = (s.readReg rd).toNat / 256 * 256 + imm8.toNat ∧ WritesRegister rd v s t

/-! ### Jump mode -/

/-- 42_jump_mode.md, jmp: x1 gets the address of the next word, `pc` the instruction's address plus the signed offset,
both modulo 65536 (the spec's D19, log 29); no other register and no memory word changes. -/
def Obligations.JmpLinksAndJumps : Prop :=
  ∀ (s : State) (imm10 : BitVec 10), ∃ t, exec (.jmp imm10) s = .next t ∧
    (t.readReg .ra).toNat = (s.pc.toNat + 1) % 65536 ∧ (t.pc.toNat : Int) = (s.pc.toNat + imm10.toInt) % 65536 ∧
    SameRegistersBut .ra s t ∧ SameMemory s t ∧ SameControl s t

/-- 42_jump_mode.md, ret: `pc <- x[1]`; "`ret` writes no register; `x[1]` keeps its value"; no check of the target at the
`ret` (the spec's D19, log 29); a `ret` whose `x[1]` holds its own address stays where it is; its unused bits are ignored
under `STRICT_UNUSED = false` (the spec's D13, log 19). -/
def Obligations.RetJumpsToLinkRegister : Prop :=
  (∀ s : State, ∃ t, exec .ret s = .next t ∧ t.pc = s.readReg .ra ∧ OnlySetsPc s t) ∧
  (∀ s : State, s.readReg .ra = s.pc → exec .ret s = .next s) ∧
  encode .ret = 0x0019 ∧ ∀ u : BitVec 11, decode false (u ++ 0b11001#5) = .ok .ret

/-- 42_jump_mode.md, calling convention: whatever a subroutine did, if x1 still holds what the `jmp` put there, `ret`
continues at the word after the `jmp` (modulo 65536: the spec's D19, log 29). -/
def Obligations.ReturnComesBackAfterTheCall : Prop :=
  ∀ (s t u : State) (imm10 : BitVec 10), exec (.jmp imm10) s = .next t → u.readReg .ra = t.readReg .ra →
    ∃ v, exec .ret u = .next v ∧ v.pc.toNat = (s.pc.toNat + 1) % 65536 ∧ OnlySetsPc u v

/-! ### Branch mode: only `pc` is written (target modulo 65536 and no check of it: the spec's D19, log 29) -/

/-- 43_branch_mode.md, beq. -/
def Obligations.BeqBranchesWhenEqual : Prop :=
  ∀ (s : State) (rs1 rs2 : Reg) (imm4 : BitVec 4), ∃ t, exec (.beq rs1 rs2 imm4) s = .next t ∧ OnlySetsPc s t ∧
    (s.readReg rs1 = s.readReg rs2 → (t.pc.toNat : Int) = (s.pc.toNat + imm4.toInt) % 65536) ∧
    (s.readReg rs1 ≠ s.readReg rs2 → Advanced s t)

/-- 43_branch_mode.md, bne. -/
def Obligations.BneBranchesWhenDifferent : Prop :=
  ∀ (s : State) (rs1 rs2 : Reg) (imm4 : BitVec 4), ∃ t, exec (.bne rs1 rs2 imm4) s = .next t ∧ OnlySetsPc s t ∧
    (s.readReg rs1 ≠ s.readReg rs2 → (t.pc.toNat : Int) = (s.pc.toNat + imm4.toInt) % 65536) ∧
    (s.readReg rs1 = s.readReg rs2 → Advanced s t)

/-- 43_branch_mode.md, bgt: the comparison is signed (the spec's reading D14, log 23). -/
def Obligations.BgtBranchesWhenSignedGreater : Prop :=
  ∀ (s : State) (rs1 rs2 : Reg) (imm4 : BitVec 4), ∃ t, exec (.bgt rs1 rs2 imm4) s = .next t ∧ OnlySetsPc s t ∧
    ((s.readReg rs1).toInt > (s.readReg rs2).toInt → (t.pc.toNat : Int) = (s.pc.toNat + imm4.toInt) % 65536) ∧
    ((s.readReg rs1).toInt ≤ (s.readReg rs2).toInt → Advanced s t)

/-- 43_branch_mode.md, blt: the comparison is signed (the spec's reading D14, log 23). -/
def Obligations.BltBranchesWhenSignedLess : Prop :=
  ∀ (s : State) (rs1 rs2 : Reg) (imm4 : BitVec 4), ∃ t, exec (.blt rs1 rs2 imm4) s = .next t ∧ OnlySetsPc s t ∧
    ((s.readReg rs1).toInt < (s.readReg rs2).toInt → (t.pc.toNat : Int) = (s.pc.toNat + imm4.toInt) % 65536) ∧
    ((s.readReg rs2).toInt ≤ (s.readReg rs1).toInt → Advanced s t)

/-! ### Load/Store mode -/

/-- 44_load_store_mode.md, ld. The address is the unsigned value of the RS1 register; 1024 and above faults or is taken
modulo 1024 by `ADDR_MODE` (the spec's D2, log 18). -/
def Obligations.LdLoadsTheAddressedWord : Prop :=
  ∀ (s : State) (rd rs1 : Reg), rd ≠ .pc →
    ((s.readReg rs1).toNat < 1024 ∨ s.cfg.addrMode = .wrap →
      ∃ t, exec (.ld rd rs1) s = .next t ∧ WritesRegister rd (s.mem.read ((s.readReg rs1).toNat % 1024)) s t) ∧
    (1024 ≤ (s.readReg rs1).toNat → s.cfg.addrMode = .fault →
      exec (.ld rd rs1) s = .fault (.addressOutOfRange .load (s.readReg rs1)))

/-- 44_load_store_mode.md, str. The address is the unsigned value of the RD register; 1024 and above faults or is taken
modulo 1024 by `ADDR_MODE` (the spec's D2, log 18). The stored word is the one at `storeAddress`, and no other word and
no register changes; `rd` may be x0 or x4. -/
def Obligations.StrStoresTheRegister : Prop :=
  ∀ (s : State) (rd rs1 : Reg),
    ((storeAddress rd s).toNat < 1024 ∨ s.cfg.addrMode = .wrap →
      ∃ t, exec (.str rd rs1) s = .next t ∧
        t.mem.read ((storeAddress rd s).toNat % 1024) = s.readReg rs1 ∧
        SameMemoryBut ((storeAddress rd s).toNat % 1024) s t ∧ SameRegisters s t ∧ SameControl s t ∧ Advanced s t) ∧
    (1024 ≤ (storeAddress rd s).toNat → s.cfg.addrMode = .fault →
      exec (.str rd rs1) s = .fault (.addressOutOfRange .store (storeAddress rd s)))

/-- 20_memory.md, memory consistency (the spec's D18, D24; log 24): a load from the stored word, whatever register holds
its address, returns what the store put there, also after a second store elsewhere. -/
def Obligations.LoadReturnsTheLatestStore : Prop :=
  ∀ (s t u : State) (rd rs1 q p a d : Reg), exec (.str rd rs1) s = .next t →
    exec (.str q p) t = .next u →
    wordIndex t.cfg.addrMode (storeAddress q t) ≠ wordIndex s.cfg.addrMode (storeAddress rd s) →
    wordIndex u.cfg.addrMode (u.readReg a) = wordIndex s.cfg.addrMode (storeAddress rd s) → d ≠ .pc → d ≠ .x0 →
    ∃ w, exec (.ld d a) u = .next w ∧ w.readReg d = s.readReg rs1

/-- 20_memory.md, instruction-fetch coherence (the spec's D1, D18; log 11): a store to the word that is fetched next
changes the instruction that executes next. -/
def Obligations.StoreIsSeenByTheNextFetch : Prop :=
  ∀ (s t : State) (rd rs1 : Reg) (i : Instr), s.halted = false → exec (.str rd rs1) s = .next t →
    wordIndex s.cfg.addrMode (storeAddress rd s) = wordIndex t.cfg.addrMode t.pc →
    decode s.cfg.strictUnused (s.readReg rs1) = .ok i → writesPc i = false → step t = exec i t

/-- The canonical form of the model's memory (log 5): memories that read alike are the same data. -/
def Obligations.MemoriesThatReadAlikeAreEqual : Prop :=
  ∀ m n : Memory, m.wf → n.wf → (∀ a, m.read a = n.read a) → m = n

/-- 20_memory.md, valid addresses (the spec's D2, log 18): under `ADDR_MODE = wrap` no step raises
`AddressOutOfRange`, and adding 1024 to an address selects the same word. -/
def Obligations.WrapModeRaisesNoAddressFault : Prop :=
  (∀ (s : State) (kind : AccessKind) (a : Word), s.cfg.addrMode = .wrap → step s ≠ .fault (.addressOutOfRange kind a)) ∧
  ∀ a : Word, wordIndex .wrap (a + 1024) = wordIndex .wrap a

/-! ### Shift mode: amounts of 0 to 31 used exactly (the spec's D10, log 16); amounts with bit 5 set are illegal
(the spec's D11, log 9, log 20) -/

/-- 45_shift_mode.md, shl. -/
def Obligations.ShlShiftsLeft : Prop :=
  ∀ (s : State) (rs1 : Reg) (imm6 : BitVec 6),
    (imm6.toNat < 32 → rs1 ≠ .pc → ∃ t v, exec (.shl rs1 imm6) s = .next t ∧
      v.toNat = (s.readReg rs1).toNat * 2 ^ imm6.toNat % 65536 ∧ WritesRegister rs1 v s t) ∧
    (32 ≤ imm6.toNat → exec (.shl rs1 imm6) s = .fault (.illegalInstruction s.pc (encode (.shl rs1 imm6))))

/-- 45_shift_mode.md, sal, under each value of `SAL_MODE` (the spec's D9, log 17). -/
def Obligations.SalShiftsLeftUnderItsMode : Prop :=
  ∀ (s : State) (rs1 : Reg) (imm6 : BitVec 6),
    (imm6.toNat < 32 → rs1 ≠ .pc → ∃ t v, exec (.sal rs1 imm6) s = .next t ∧
      (s.cfg.salMode = .asShl → v.toNat = (s.readReg rs1).toNat * 2 ^ imm6.toNat % 65536) ∧
      (s.cfg.salMode = .keepSign → v.toNat =
        (s.readReg rs1).toNat / 32768 * 32768 + (s.readReg rs1).toNat * 2 ^ imm6.toNat % 32768) ∧
      WritesRegister rs1 v s t) ∧
    (32 ≤ imm6.toNat → exec (.sal rs1 imm6) s = .fault (.illegalInstruction s.pc (encode (.sal rs1 imm6))))

/-- 45_shift_mode.md, sal, what holds under both values of `SAL_MODE`: a product that fits 16 signed bits is the
result; an amount of 0 leaves the register unchanged (amounts: the spec's D10, log 16). -/
def Obligations.SalIsExactWhenTheProductFits : Prop :=
  ∀ (s t : State) (rs1 : Reg) (imm6 : BitVec 6), rs1 ≠ .x0 → exec (.sal rs1 imm6) s = .next t →
    (-32768 ≤ (s.readReg rs1).toInt * 2 ^ imm6.toNat → (s.readReg rs1).toInt * 2 ^ imm6.toNat ≤ 32767 →
      (t.readReg rs1).toInt = (s.readReg rs1).toInt * 2 ^ imm6.toNat) ∧
    (imm6 = 0 → t.readReg rs1 = s.readReg rs1)

/-- 45_shift_mode.md, shr: the unsigned reading divided by 2^n. -/
def Obligations.ShrDividesUnsigned : Prop :=
  ∀ (s : State) (rs1 : Reg) (imm6 : BitVec 6),
    (imm6.toNat < 32 → rs1 ≠ .pc → ∃ t v, exec (.shr rs1 imm6) s = .next t ∧
      v.toNat = (s.readReg rs1).toNat / 2 ^ imm6.toNat ∧ WritesRegister rs1 v s t) ∧
    (32 ≤ imm6.toNat → exec (.shr rs1 imm6) s = .fault (.illegalInstruction s.pc (encode (.shr rs1 imm6))))

/-- 45_shift_mode.md, sar: the signed reading divided by 2^n, rounded toward minus infinity. -/
def Obligations.SarDividesSignedRoundingDown : Prop :=
  ∀ (s : State) (rs1 : Reg) (imm6 : BitVec 6),
    (imm6.toNat < 32 → rs1 ≠ .pc → ∃ t v, exec (.sar rs1 imm6) s = .next t ∧
      v.toInt = (s.readReg rs1).toInt / 2 ^ imm6.toNat ∧ WritesRegister rs1 v s t) ∧
    (32 ≤ imm6.toNat → exec (.sar rs1 imm6) s = .fault (.illegalInstruction s.pc (encode (.sar rs1 imm6))))

/-! ### Halt mode and the end of a run -/

/-- 46_halt_mode.md, halt: the flag is set and nothing else changes, not even `pc` (the spec's D16, log 22); a word with
opcode 0000 is `halt`, whatever its unused bits hold under `STRICT_UNUSED = false` (the spec's D13, log 19). -/
def Obligations.HaltSetsTheFlagOnly : Prop :=
  (∀ s : State, ∃ t, exec .halt s = .next t ∧ t.halted = true ∧ t.pc = s.pc ∧ SameRegisters s t ∧ SameMemory s t ∧
    t.cfg = s.cfg) ∧
  encode .halt = 0x0000 ∧ ∀ u : BitVec 12, decode false (u ++ 0b0000#4) = .ok .halt

/-- 46_halt_mode.md: after `halt` "no register, no memory word and not `pc` changes again" (the spec's D16, log 22), for
any number of steps; that a step of a halted machine answers the same state is the model's choice (log 7). -/
def Obligations.HaltedMachineNeverChanges : Prop :=
  ∀ s t : State, exec .halt s = .next t → ∀ k, runSteps k t = .next t

/-- 70_reset_and_hazards.md, end of a run (the spec's D16; log 7, log 22): every run halts, faults or goes on for ever,
no run does two of these, and the final state and the fault are unique. -/
def Obligations.EveryRunEndsInExactlyOneWay : Prop :=
  ∀ s : State,
    ((∃ t, HaltsIn s t) ∨ (∃ f, FaultsWith s f) ∨ NeverEnds s) ∧
    ¬((∃ t, HaltsIn s t) ∧ ∃ f, FaultsWith s f) ∧ ¬((∃ t, HaltsIn s t) ∧ NeverEnds s) ∧
    ¬((∃ f, FaultsWith s f) ∧ NeverEnds s) ∧
    (∀ t u, HaltsIn s t → HaltsIn s u → t = u) ∧ ∀ f g, FaultsWith s f → FaultsWith s g → f = g

/-! ### The instruction cycle and its faults -/

/-- A step runs the instruction that the word at `pc` decodes to, when that instruction is none that writes x4
through a field: then the step is exactly `exec` of it (10_state.md, the instruction cycle; the spec's D17, D21, log 33). -/
def Obligations.StepRunsTheDecodedInstruction : Prop :=
  ∀ (s : State) (n : Nat) (i : Instr), s.halted = false → wordIndex s.cfg.addrMode s.pc = some n →
    decode s.cfg.strictUnused (s.mem.read n) = .ok i → writesPc i = false → step s = exec i s

/-- 60_exceptions.md, priority (the spec's D21, log 33): fetch address, then illegal word, then a write of x4, each with
the information the fault records, whatever the later checks would say (so `ld pc, x5` with an address out of range
reports `WriteToPC`). -/
def Obligations.StepReportsFaultsInOrder : Prop :=
  ∀ s : State, s.halted = false →
    (1024 ≤ s.pc.toNat → s.cfg.addrMode = .fault → step s = .fault (.addressOutOfRange .fetch s.pc)) ∧
    (s.pc.toNat < 1024 ∨ s.cfg.addrMode = .wrap →
      ∀ insn, s.mem.read (s.pc.toNat % 1024) = insn →
        (∀ why, decode s.cfg.strictUnused insn = .error why → step s = .fault (.illegalInstruction s.pc insn)) ∧
        ∀ i, decode s.cfg.strictUnused insn = .ok i → destField i = some .pc → step s = .fault (.writeToPC s.pc insn))

/-- 10_state.md, writing x4 through a field (the spec's D5, log 21): every such form is refused before any operand is
read, and `str` with rd = x4 is no such form. The word named is the one an assembler writes (log 8). -/
def Obligations.FormsThatWriteX4Fault : Prop :=
  ∀ (s : State) (rs1 rs2 : Reg) (imm8 : BitVec 8) (imm6 : BitVec 6),
    (∀ i ∈ [.addr .pc rs1 rs2, .andr .pc rs1 rs2, .nandr .pc rs1 rs2, .orr .pc rs1 rs2, .subr .pc rs1 rs2,
        .addi .pc imm8, .movu .pc imm8, .movl .pc imm8, .ld .pc rs1],
      exec i s = .fault (.writeToPC s.pc (encode i))) ∧
    (imm6.toNat < 32 → ∀ i ∈ [.shl .pc imm6, .sal .pc imm6, .shr .pc imm6, .sar .pc imm6],
      exec i s = .fault (.writeToPC s.pc (encode i))) ∧
    ∀ p w, exec (.str .pc rs1) s ≠ .fault (.writeToPC p w)

/-- 60_exceptions.md, the model faults: "No other condition raises a fault" (the spec's D2, D5, D11, D12, D17; log 18, 20,
21). -/
def Obligations.StepFaultsOnlyForTheNamedReasons : Prop :=
  ∀ (s : State) (f : Fault), step s = .fault f → s.halted = false ∧
    ((1024 ≤ s.pc.toNat ∧ s.cfg.addrMode = .fault ∧ f = .addressOutOfRange .fetch s.pc) ∨
     ∃ n insn, wordIndex s.cfg.addrMode s.pc = some n ∧ s.mem.read n = insn ∧
      ((∃ why, decode s.cfg.strictUnused insn = .error why ∧ f = .illegalInstruction s.pc insn) ∨
       (∃ i, decode s.cfg.strictUnused insn = .ok i ∧ destField i = some .pc ∧ f = .writeToPC s.pc insn) ∨
       (∃ rd rs1, decode s.cfg.strictUnused insn = .ok (.ld rd rs1) ∧ rd ≠ .pc ∧
         1024 ≤ (s.readReg rs1).toNat ∧ s.cfg.addrMode = .fault ∧ f = .addressOutOfRange .load (s.readReg rs1)) ∨
       (∃ rd rs1, decode s.cfg.strictUnused insn = .ok (.str rd rs1) ∧ 1024 ≤ (s.readReg rd).toNat ∧
         s.cfg.addrMode = .fault ∧ f = .addressOutOfRange .store (s.readReg rd))))

/-- Every instruction has a meaning in every state: no step is refused (00_scope.md, scope: all 21 instructions). -/
def Obligations.NoStepIsRefused : Prop := ∀ (s : State) (r : Refusal), step s ≠ .refused r

/-- 10_state.md, the instruction cycle: a step "writes at most one register or one memory word" beside `pc` (the spec's
D17, D21, log 24). Which register is the fetched instruction's (`tableWrites`, at most one, and none beside a store);
which word is the one at the address its `str` computes. A halted machine writes nothing (log 7); no step writes a
parameter (the model's own field, log 1). -/
def Obligations.StepWritesOneRegisterOrOneWord : Prop :=
  (∀ i : Instr, (tableWrites i).length + (if tableWritesMemory i then 1 else 0) ≤ 1) ∧
  ∀ s t : State, step s = .next t → t.cfg = s.cfg ∧ (s.halted = true → t = s) ∧
    (s.halted = false → ∃ i, s.fetchDecode = .ok i ∧
      (∀ r, r ≠ .pc → r ∉ tableWrites i → t.readReg r = s.readReg r) ∧
      (tableWritesMemory i = false → SameMemory s t) ∧
      ∀ rd rs1, i = .str rd rs1 → (wordIndex s.cfg.addrMode (storeAddress rd s)).isSome ∧
        ∀ n, wordIndex s.cfg.addrMode (storeAddress rd s) = some n → SameMemoryBut n s t ∧ t.mem.read n = s.readReg rs1)

/-- From every state whose memory is in canonical form inside the 1024 words, a step leads to such a state
(20_memory.md, the memory; the form is the model's own, log 5). -/
def Obligations.StepKeepsTheInvariant : Prop := ∀ s t : State, s.Inv → step s = .next t → t.Inv

/-- 10_state.md R28, the table of register access: an instruction changes no register that the table does not list as
written, no memory unless it lists memory as written, the halted flag only in `halt`, `pc` in every row but `halt`'s;
and what it does depends on no register that the table does not list as read, on `pc` in every row but `ret`'s and
`halt`'s, and on memory only where it lists memory as read: two states that agree on those (and on the parameters, the
model's own field, log 1) give the same fault, or next states that agree on everything written. -/
def Obligations.InstructionsReadAndWriteWhatTheTableLists : Prop :=
  (∀ (i : Instr) (s t : State), exec i s = .next t →
    (∀ r, r ≠ .pc → r ∉ tableWrites i → t.readReg r = s.readReg r) ∧ (i = .halt → t.pc = s.pc) ∧
    (tableWritesMemory i = false → SameMemory s t) ∧ (i ≠ .halt → t.halted = s.halted) ∧ t.cfg = s.cfg) ∧
  ∀ (i : Instr) (s u : State), (i ≠ .ret → i ≠ .halt → u.pc = s.pc) → u.cfg = s.cfg →
    (∀ r ∈ tableReads i, u.readReg r = s.readReg r) → (tableReadsMemory i = true → SameMemory s u) →
    (∀ f, exec i s = .fault f → exec i u = .fault f) ∧
    ∀ t, exec i s = .next t → ∃ v, exec i u = .next v ∧ (i ≠ .halt → v.pc = t.pc) ∧
      (∀ r ∈ tableWrites i, v.readReg r = t.readReg r) ∧
      (∀ a, t.mem.read a ≠ s.mem.read a → v.mem.read a = t.mem.read a) ∧ (t.halted ≠ s.halted → v.halted = t.halted)

/-- 10_state.md R13: x0 reads as zero in every state, whatever was written to it, after every run; it copies, clears
and compares with zero as the examples use it: `beq x7, x0` is the branch that is always taken when x7 is zero, and
the one that is never taken when it is not. -/
def Obligations.RegisterZeroReadsAsZero : Prop :=
  (∀ s : State, s.readReg .x0 = 0x0000) ∧ (∀ (s : State) (v : Word), (s.setReg .x0 v).readReg .x0 = 0x0000) ∧
  (∀ (k : Nat) (s t : State), runSteps k s = .next t → t.readReg .x0 = 0x0000) ∧
  ∀ s : State,
    (∃ t, exec (.addr .x5 .x6 .x0) s = .next t ∧ t.readReg .x5 = s.readReg .x6) ∧
    (∃ t, exec (.addr .x5 .x0 .x0) s = .next t ∧ t.readReg .x5 = 0x0000) ∧
    ∀ imm4 : BitVec 4, exec (.beq .x7 .x0 imm4) s =
      if s.readReg .x7 = 0x0000 then exec (.beq .x0 .x0 imm4) s else exec (.bne .x0 .x0 imm4) s

/-! ### Encoding: the seven formats, words written out field by field -/

/-- 30_encoding.md R54. -/
def Obligations.RegisterFormatPlacesItsFields : Prop :=
  (∀ (strict : Bool) (rd rs1 rs2 : Reg),
    decode strict (rs1.field ++ rs2.field ++ rd.field ++ 0b0001#4) = .ok (.addr rd rs1 rs2) ∧
    decode strict (rs1.field ++ rs2.field ++ rd.field ++ 0b0010#4) = .ok (.andr rd rs1 rs2) ∧
    decode strict (rs1.field ++ rs2.field ++ rd.field ++ 0b0011#4) = .ok (.nandr rd rs1 rs2) ∧
    decode strict (rs1.field ++ rs2.field ++ rd.field ++ 0b0100#4) = .ok (.orr rd rs1 rs2) ∧
    decode strict (rs1.field ++ rs2.field ++ rd.field ++ 0b0101#4) = .ok (.subr rd rs1 rs2)) ∧
  encode (.addr .x7 .x5 .x6) = 0b0101011001110001#16

/-- 30_encoding.md R55. -/
def Obligations.ImmediateFormatPlacesItsFields : Prop :=
  (∀ (strict : Bool) (rd : Reg) (imm8 : BitVec 8),
    decode strict (imm8 ++ rd.field ++ 0b0110#4) = .ok (.addi rd imm8) ∧
    decode strict (imm8 ++ rd.field ++ 0b0111#4) = .ok (.movu rd imm8) ∧
    decode strict (imm8 ++ rd.field ++ 0b1000#4) = .ok (.movl rd imm8) ∧
    ∀ i ∈ [.addi rd imm8, .movu rd imm8, .movl rd imm8], tableReads i = [rd] ∧ tableWrites i = [rd]) ∧
  encode (.addi .x5 (-1)) = 0b1111111101010110#16 ∧ encode (.addi .x5 10) = 0b0000101001010110#16

/-- 30_encoding.md R56, with the unused bits 0. -/
def Obligations.JumpFormatPlacesItsFields : Prop :=
  (∀ (strict : Bool) (imm10 : BitVec 10), decode strict (imm10 ++ 0#1 ++ 0#1 ++ 0b1001#4) = .ok (.jmp imm10)) ∧
  (∀ strict : Bool, decode strict (0#10 ++ 0#1 ++ 1#1 ++ 0b1001#4) = .ok .ret) ∧
  encode (.jmp 2) = 0b0000000010001001#16 ∧ encode .ret = 0b0000000000011001#16

/-- 30_encoding.md R57. -/
def Obligations.BranchFormatPlacesItsFields : Prop :=
  (∀ (strict : Bool) (rs1 rs2 : Reg) (imm4 : BitVec 4),
    decode strict (rs1.field ++ rs2.field ++ imm4 ++ 0b1010#4) = .ok (.beq rs1 rs2 imm4) ∧
    decode strict (rs1.field ++ rs2.field ++ imm4 ++ 0b1011#4) = .ok (.bne rs1 rs2 imm4) ∧
    decode strict (rs1.field ++ rs2.field ++ imm4 ++ 0b1100#4) = .ok (.bgt rs1 rs2 imm4) ∧
    decode strict (rs1.field ++ rs2.field ++ imm4 ++ 0b1101#4) = .ok (.blt rs1 rs2 imm4)) ∧
  encode (.beq .x7 .x0 2) = 0b0111000000101010#16 ∧ encode (.bgt .x5 .x0 0b1111) = 0b0101000011111100#16 ∧
  encode (.beq .x5 .x0 0b1110) = 0b0101000011101010#16 ∧ encode (.bgt .x5 .x0 0b1101) = 0b0101000011011100#16

/-- 30_encoding.md R58, with the unused bits 0. -/
def Obligations.LoadStoreFormatPlacesItsFields : Prop :=
  (∀ (strict : Bool) (rd rs1 : Reg),
    decode strict (rs1.field ++ 0#2 ++ 0b10#2 ++ rd.field ++ 0b1110#4) = .ok (.ld rd rs1) ∧
    decode strict (rs1.field ++ 0#2 ++ 0b01#2 ++ rd.field ++ 0b1110#4) = .ok (.str rd rs1) ∧
    (∀ s : State, loadAddress rs1 s = s.readReg rs1 ∧ storeAddress rd s = s.readReg rd) ∧
    tableWrites (.ld rd rs1) = [rd] ∧ tableReads (.str rd rs1) = [rs1, rd] ∧ tableWrites (.str rd rs1) = []) ∧
  encode (.ld .x5 .sp) = 0b0011001001011110#16 ∧ encode (.str .sp .x5) = 0b0101000100111110#16

/-- 30_encoding.md R59, for the amounts that are no negative number (the others: `IllegalWordsAreExactlyTheseTwoKinds`). -/
def Obligations.ShiftFormatPlacesItsFields : Prop :=
  ∀ (strict : Bool) (rs1 : Reg) (imm6 : BitVec 6), imm6.toNat < 32 →
    decode strict (rs1.field ++ imm6 ++ 0#1 ++ 0#1 ++ 0b1111#4) = .ok (.shl rs1 imm6) ∧
    decode strict (rs1.field ++ imm6 ++ 1#1 ++ 0#1 ++ 0b1111#4) = .ok (.sal rs1 imm6) ∧
    decode strict (rs1.field ++ imm6 ++ 0#1 ++ 1#1 ++ 0b1111#4) = .ok (.shr rs1 imm6) ∧
    decode strict (rs1.field ++ imm6 ++ 1#1 ++ 1#1 ++ 0b1111#4) = .ok (.sar rs1 imm6) ∧
    ∀ i ∈ [.shl rs1 imm6, .sal rs1 imm6, .shr rs1 imm6, .sar rs1 imm6], tableReads i = [rs1] ∧ tableWrites i = [rs1]

/-- Words written out in the source's examples (30_encoding.md, opcode map; 95_test_vectors.md, section 1) and the
words of 95_test_vectors.md section 2.8 for the instructions the source has no example of: a sanity statement. -/
def Obligations.ExampleWordsDecode : Prop :=
  decode false 0x0000 = .ok .halt ∧ decode false 0x6051 = .ok (.addr .x5 .x6 .x0) ∧
  decode false 0x5652 = .ok (.andr .x5 .x5 .x6) ∧ decode false 0x5673 = .ok (.nandr .x7 .x5 .x6) ∧
  decode false 0x5654 = .ok (.orr .x5 .x5 .x6) ∧ decode false 0x5675 = .ok (.subr .x7 .x5 .x6) ∧
  decode false 0xFF56 = .ok (.addi .x5 0xFF) ∧ decode false 0x1257 = .ok (.movu .x5 0x12) ∧
  decode false 0x3458 = .ok (.movl .x5 0x34) ∧ decode false 0xFF49 = .ok (.jmp 0x3FD) ∧
  decode false 0x50FB = .ok (.bne .x5 .x0 0xF) ∧ decode false 0x563D = .ok (.blt .x5 .x6 3) ∧
  decode false 0x325E = .ok (.ld .x5 .sp) ∧ decode false 0x613E = .ok (.str .sp .x6) ∧
  decode false 0x50CF = .ok (.shl .x5 3) ∧ decode false 0x506F = .ok (.sal .x5 1) ∧
  decode false 0x511F = .ok (.shr .x5 4) ∧ decode false 0x513F = .ok (.sar .x5 4)

/-- 30_encoding.md, the decoder and its illegal encodings (the spec's D11, D12, log 20): with the unused bits ignored
a word is illegal exactly when its opcode is 1110 with LS = 00 or 11, or 1111 with bit 11 set. -/
def Obligations.IllegalWordsAreExactlyTheseTwoKinds : Prop :=
  ∀ (w : Word) (why : Illegal), decode false w = .error why ↔
    (w.toNat % 16 = 14 ∧ (w.toNat / 256 % 4 = 0 ∨ w.toNat / 256 % 4 = 3) ∧ why = .unassignedSelector) ∨
    (w.toNat % 16 = 15 ∧ w.toNat / 2048 % 2 = 1 ∧ why = .negativeAmount)

/-- 30_encoding.md, unused bits (the spec's D13, log 19): ignored when `STRICT_UNUSED` is false; when it is true, a word
decodes exactly when none of them is set. -/
def Obligations.UnusedBitsMatterOnlyWhenStrict : Prop :=
  (∀ (w u : Word) (i : Instr), decode false w = .ok i →
    decode false ((w &&& ~~~i.unusedMask) ||| (u &&& i.unusedMask)) = .ok i) ∧
  ∀ (w : Word) (i : Instr), decode true w = .ok i ↔ decode false w = .ok i ∧ w &&& i.unusedMask = 0

/-- Decoding an encoded well-formed instruction gives it back, with every operand at every value, under either value of
`STRICT_UNUSED` (30_encoding.md, formats and decoder). -/
def Obligations.DecodeOfEncodeIsTheInstruction : Prop :=
  ∀ (strict : Bool) (i : Instr), i.wellFormed = true → decode strict (encode i) = .ok i

/-- Encoding a decoded word gives the word back with its unused bits cleared, and what is decoded is well formed: no
two words that differ in a used bit decode alike (30_encoding.md, formats and decoder). -/
def Obligations.EncodeOfDecodeIsTheWordWithUnusedBitsClear : Prop :=
  ∀ (w : Word) (i : Instr), decode false w = .ok i → i.wellFormed = true ∧ encode i = w &&& ~~~i.unusedMask

/-- The decoder agrees with spec/opcode_table.json: a word is an instruction of a row exactly when `w & mask = match`
(30_encoding.md, how to read the table). -/
def Obligations.DecoderAgreesWithTheOpcodeTable : Prop :=
  ∀ (w : Word) (m : Mnemonic), m.matchesWord w = true ↔ ∃ i, decode false w = .ok i ∧ i.mnemonic = m

/-! ### Pseudo-instructions and the assembler -/

/-- 47_pseudoinstructions.md, push: its two words, its net effect, and its fault with `sp` already lowered (the spec's
D2, D7, log 14, log 18). `pc` is the first word's address. -/
def Obligations.PushLowersSpAndStores : Prop :=
  ∀ (s : State) (k : Reg),
    (expand (.push k)).map encode = [0xFF36, k.field ++ 0x13E#12] ∧
    ((s.readReg .sp - 1).toNat < 1024 ∨ s.cfg.addrMode = .wrap →
      ∃ t, execPseudo (.push k) s = .next t ∧ t.readReg .sp = s.readReg .sp - 1 ∧
        t.mem.read ((s.readReg .sp - 1).toNat % 1024) =
          (if k = .sp then s.readReg .sp - 1 else if k = .pc then s.pc + 1 else s.readReg k) ∧
        SameMemoryBut ((s.readReg .sp - 1).toNat % 1024) s t ∧ SameRegistersBut .sp s t ∧ SameControl s t ∧
        t.pc = s.pc + 2) ∧
    (1024 ≤ (s.readReg .sp - 1).toNat → s.cfg.addrMode = .fault →
      (∃ t, exec (.addi .sp (-1)) s = .next t ∧ t.readReg .sp = s.readReg .sp - 1) ∧
      execPseudo (.push k) s = .fault (.addressOutOfRange .store (s.readReg .sp - 1)))

/-- 47_pseudoinstructions.md, pop: its two words and its net effect, for every register but x4, which is refused (the
spec's D2, D5, D7; log 14, 18, 21). -/
def Obligations.PopLoadsAndRaisesSp : Prop :=
  ∀ (s : State) (k : Reg),
    (expand (.pop k)).map encode = [0x3#4 ++ 0x2#4 ++ k.field ++ 0xE#4, 0x0136] ∧
    (∀ v, k ≠ .pc → (s.readReg .sp).toNat < 1024 ∨ s.cfg.addrMode = .wrap →
      s.mem.read ((s.readReg .sp).toNat % 1024) = v →
      ∃ t, execPseudo (.pop k) s = .next t ∧ t.readReg .sp = (if k = .sp then v else s.readReg .sp) + 1 ∧
        (k ≠ .sp → k ≠ .x0 → t.readReg k = v) ∧ (∀ r, r ≠ .pc → r ≠ .sp → r ≠ k → t.readReg r = s.readReg r) ∧
        SameMemory s t ∧ SameControl s t ∧ t.pc = s.pc + 2) ∧
    (k ≠ .pc → 1024 ≤ (s.readReg .sp).toNat → s.cfg.addrMode = .fault →
      execPseudo (.pop k) s = .fault (.addressOutOfRange .load (s.readReg .sp))) ∧
    (k = .pc → execPseudo (.pop k) s = .fault (.writeToPC s.pc (encode (.ld .pc .sp))))

/-- 47_pseudoinstructions.md, the stack discipline: one push followed by one pop into the same register restores `sp`
and the register and leaves the pushed value in memory. -/
def Obligations.PushThenPopRestores : Prop :=
  ∀ (s t : State) (k : Reg), k ≠ .pc → k ≠ .sp → execPseudo (.push k) s = .next t →
    ∃ u, execPseudo (.pop k) t = .next u ∧ SameRegisters s u ∧
      u.mem.read ((s.readReg .sp - 1).toNat % 1024) = s.readReg k ∧ u.pc = s.pc + 4

/-- 47_pseudoinstructions.md, mov: its word and its net effect, for every destination but x4 (the spec's D5, log 21). -/
def Obligations.MovCopiesARegister : Prop :=
  ∀ (s : State) (rd rs1 : Reg),
    (expand (.mov rd rs1)).map encode = [rs1.field ++ 0#4 ++ rd.field ++ 0b0001#4] ∧
    (rd ≠ .pc → ∃ t, execPseudo (.mov rd rs1) s = .next t ∧ WritesRegister rd (s.readReg rs1) s t) ∧
    (rd = .pc → execPseudo (.mov rd rs1) s = .fault (.writeToPC s.pc (encode (.addr .pc rs1 .x0))))

/-- 30_encoding.md, labels: the offset an assembled branch or `jmp` holds leads, from the instruction's own address,
to the label's address; a distance outside the field's range is rejected (the spec's D20, log 28). -/
def Obligations.AssembledOffsetsReachTheirLabels : Prop :=
  ∀ (labels : List (String × Nat)) (here a : Nat) (name : String), labelAddress name labels = some a →
    (∀ k, branchOffset labels here name = some k → BitVec.ofNat 16 here + k.signExtend 16 = BitVec.ofNat 16 a) ∧
    (∀ k, jumpOffset labels here name = some k → BitVec.ofNat 16 here + k.signExtend 16 = BitVec.ofNat 16 a) ∧
    (branchOffset labels here name = none ↔ (a : Int) - here < -8 ∨ (a : Int) - here > 7) ∧
    (jumpOffset labels here name = none ↔ (a : Int) - here < -512 ∨ (a : Int) - here > 511)
end

