-- ==== Sys2Proof/Laws/Encoding.lean ====
section
/-! SUPPORT. Register fields, and the fields of an encoded word: one lemma per field of each format. -/

namespace Sys2Proof

@[simp] theorem Reg.ofField_field (r : Reg) : Reg.ofField r.field = r := by cases r <;> rfl

theorem Reg.field_ofField (b : BitVec 4) : (Reg.ofField b).field = b := by revert b; decide

theorem Reg.field_injective {q r : Reg} (h : q.field = r.field) : q = r := by
  rw [← q.ofField_field, ← r.ofField_field, h]

/-- The four 4-bit fields of the R and B formats are read back from where they were put (30_encoding.md R54, R57). -/
theorem four_fields (a b c d : BitVec 4) :
    BitVec.extractLsb' 12 4 (a ++ b ++ c ++ d) = a ∧ BitVec.extractLsb' 8 4 (a ++ b ++ c ++ d) = b ∧
      BitVec.extractLsb' 4 4 (a ++ b ++ c ++ d) = c ∧ BitVec.extractLsb' 0 4 (a ++ b ++ c ++ d) = d := by
  refine ⟨?_, ?_, ?_, ?_⟩ <;>
  · apply BitVec.eq_of_getLsbD_eq
    intro k hk
    interval_cases k <;> simp only [BitVec.getLsbD_extractLsb', BitVec.getLsbD_append] <;> rfl

/-- The fields of the I format (R55). -/
theorem immediate_fields (a : BitVec 8) (b c : BitVec 4) :
    BitVec.extractLsb' 8 8 (a ++ b ++ c) = a ∧ BitVec.extractLsb' 4 4 (a ++ b ++ c) = b ∧
      BitVec.extractLsb' 0 4 (a ++ b ++ c) = c := by
  refine ⟨?_, ?_, ?_⟩ <;>
  · apply BitVec.eq_of_getLsbD_eq
    intro k hk
    interval_cases k <;> simp only [BitVec.getLsbD_extractLsb', BitVec.getLsbD_append] <;> rfl

/-- The fields of the J format (R56). -/
theorem jump_fields (a : BitVec 10) (u r : BitVec 1) (op : BitVec 4) :
    BitVec.extractLsb' 6 10 (a ++ u ++ r ++ op) = a ∧ BitVec.getLsbD (a ++ u ++ r ++ op) 4 = r.getLsbD 0 ∧
      BitVec.extractLsb' 0 4 (a ++ u ++ r ++ op) = op := by
  refine ⟨?_, ?_, ?_⟩
  · apply BitVec.eq_of_getLsbD_eq
    intro k hk
    interval_cases k <;> simp only [BitVec.getLsbD_extractLsb', BitVec.getLsbD_append] <;> rfl
  · simp only [BitVec.getLsbD_append]; rfl
  · apply BitVec.eq_of_getLsbD_eq
    intro k hk
    interval_cases k <;> simp only [BitVec.getLsbD_extractLsb', BitVec.getLsbD_append] <;> rfl

/-- The fields of the LS format (R58). -/
theorem load_store_fields (a : BitVec 4) (u ls : BitVec 2) (d op : BitVec 4) :
    BitVec.extractLsb' 12 4 (a ++ u ++ ls ++ d ++ op) = a ∧
      BitVec.getLsbD (a ++ u ++ ls ++ d ++ op) 9 = ls.getLsbD 1 ∧
      BitVec.getLsbD (a ++ u ++ ls ++ d ++ op) 8 = ls.getLsbD 0 ∧
      BitVec.extractLsb' 4 4 (a ++ u ++ ls ++ d ++ op) = d ∧
      BitVec.extractLsb' 0 4 (a ++ u ++ ls ++ d ++ op) = op := by
  refine ⟨?_, ?_, ?_, ?_, ?_⟩
  · apply BitVec.eq_of_getLsbD_eq
    intro k hk
    interval_cases k <;> simp only [BitVec.getLsbD_extractLsb', BitVec.getLsbD_append] <;> rfl
  · simp only [BitVec.getLsbD_append]; rfl
  · simp only [BitVec.getLsbD_append]; rfl
  all_goals
    apply BitVec.eq_of_getLsbD_eq
    intro k hk
    interval_cases k <;> simp only [BitVec.getLsbD_extractLsb', BitVec.getLsbD_append] <;> rfl

/-- The fields of the S format (R59). -/
theorem shift_fields (a : BitVec 4) (n : BitVec 6) (ad : BitVec 2) (op : BitVec 4) :
    BitVec.extractLsb' 12 4 (a ++ n ++ ad ++ op) = a ∧ BitVec.extractLsb' 6 6 (a ++ n ++ ad ++ op) = n ∧
      BitVec.getLsbD (a ++ n ++ ad ++ op) 11 = n.msb ∧ BitVec.getLsbD (a ++ n ++ ad ++ op) 5 = ad.getLsbD 1 ∧
      BitVec.getLsbD (a ++ n ++ ad ++ op) 4 = ad.getLsbD 0 ∧ BitVec.extractLsb' 0 4 (a ++ n ++ ad ++ op) = op := by
  refine ⟨?_, ?_, ?_, ?_, ?_, ?_⟩
  · apply BitVec.eq_of_getLsbD_eq
    intro k hk
    interval_cases k <;> simp only [BitVec.getLsbD_extractLsb', BitVec.getLsbD_append] <;> rfl
  · apply BitVec.eq_of_getLsbD_eq
    intro k hk
    interval_cases k <;> simp only [BitVec.getLsbD_extractLsb', BitVec.getLsbD_append] <;> rfl
  · simp only [BitVec.getLsbD_append, BitVec.msb_eq_getLsbD_last]; rfl
  · simp only [BitVec.getLsbD_append]; rfl
  · simp only [BitVec.getLsbD_append]; rfl
  · apply BitVec.eq_of_getLsbD_eq
    intro k hk
    interval_cases k <;> simp only [BitVec.getLsbD_extractLsb', BitVec.getLsbD_append] <;> rfl

variable (op : BitVec 4) (rd rs1 rs2 : Reg)

theorem opcodeField_encodeR : opcodeField (encodeR op rd rs1 rs2) = op := (four_fields _ _ _ _).2.2.2
theorem rdField_encodeR : rdField (encodeR op rd rs1 rs2) = rd :=
  (congrArg Reg.ofField (four_fields _ _ _ _).2.2.1).trans rd.ofField_field
theorem rs1Field_encodeR : rs1Field (encodeR op rd rs1 rs2) = rs1 :=
  (congrArg Reg.ofField (four_fields _ _ _ _).1).trans rs1.ofField_field
theorem rs2Field_encodeR : rs2Field (encodeR op rd rs1 rs2) = rs2 :=
  (congrArg Reg.ofField (four_fields _ _ _ _).2.1).trans rs2.ofField_field

theorem opcodeField_encodeI (k : BitVec 8) : opcodeField (encodeI op rd k) = op := (immediate_fields _ _ _).2.2
theorem rdField_encodeI (k : BitVec 8) : rdField (encodeI op rd k) = rd :=
  (congrArg Reg.ofField (immediate_fields _ _ _).2.1).trans rd.ofField_field
theorem imm8Field_encodeI (k : BitVec 8) : imm8Field (encodeI op rd k) = k := (immediate_fields _ _ _).1

theorem opcodeField_encodeJ (k : BitVec 10) (r : BitVec 1) : opcodeField (encodeJ k r) = 0b1001#4 :=
  (jump_fields _ _ _ _).2.2
theorem selector_encodeJ (k : BitVec 10) (r : BitVec 1) : (encodeJ k r).getLsbD 4 = r.getLsbD 0 :=
  (jump_fields _ _ _ _).2.1
theorem imm10Field_encodeJ (k : BitVec 10) (r : BitVec 1) : imm10Field (encodeJ k r) = k := (jump_fields _ _ _ _).1

theorem opcodeField_encodeB (k : BitVec 4) : opcodeField (encodeB op rs1 rs2 k) = op := (four_fields _ _ _ _).2.2.2
theorem rs1Field_encodeB (k : BitVec 4) : rs1Field (encodeB op rs1 rs2 k) = rs1 :=
  (congrArg Reg.ofField (four_fields _ _ _ _).1).trans rs1.ofField_field
theorem rs2Field_encodeB (k : BitVec 4) : rs2Field (encodeB op rs1 rs2 k) = rs2 :=
  (congrArg Reg.ofField (four_fields _ _ _ _).2.1).trans rs2.ofField_field
theorem imm4Field_encodeB (k : BitVec 4) : imm4Field (encodeB op rs1 rs2 k) = k := (four_fields _ _ _ _).2.2.1

theorem opcodeField_encodeLS (ls : BitVec 2) : opcodeField (encodeLS ls rd rs1) = 0b1110#4 :=
  (load_store_fields _ _ _ _ _).2.2.2.2
theorem selectors_encodeLS (ls : BitVec 2) :
    (encodeLS ls rd rs1).getLsbD 9 = ls.getLsbD 1 ∧ (encodeLS ls rd rs1).getLsbD 8 = ls.getLsbD 0 :=
  ⟨(load_store_fields _ _ _ _ _).2.1, (load_store_fields _ _ _ _ _).2.2.1⟩
theorem rdField_encodeLS (ls : BitVec 2) : rdField (encodeLS ls rd rs1) = rd :=
  (congrArg Reg.ofField (load_store_fields _ _ _ _ _).2.2.2.1).trans rd.ofField_field
theorem rs1Field_encodeLS (ls : BitVec 2) : rs1Field (encodeLS ls rd rs1) = rs1 :=
  (congrArg Reg.ofField (load_store_fields _ _ _ _ _).1).trans rs1.ofField_field

theorem opcodeField_encodeS (ad : BitVec 2) (n : BitVec 6) : opcodeField (encodeS ad rs1 n) = 0b1111#4 :=
  (shift_fields _ _ _ _).2.2.2.2.2
theorem selectors_encodeS (ad : BitVec 2) (n : BitVec 6) :
    (encodeS ad rs1 n).getLsbD 11 = n.msb ∧ (encodeS ad rs1 n).getLsbD 5 = ad.getLsbD 1 ∧
      (encodeS ad rs1 n).getLsbD 4 = ad.getLsbD 0 :=
  ⟨(shift_fields _ _ _ _).2.2.1, (shift_fields _ _ _ _).2.2.2.1, (shift_fields _ _ _ _).2.2.2.2.1⟩
theorem rs1Field_encodeS (ad : BitVec 2) (n : BitVec 6) : rs1Field (encodeS ad rs1 n) = rs1 :=
  (congrArg Reg.ofField (shift_fields _ _ _ _).1).trans rs1.ofField_field
theorem imm6Field_encodeS (ad : BitVec 2) (n : BitVec 6) : imm6Field (encodeS ad rs1 n) = n :=
  (shift_fields _ _ _ _).2.1

theorem decodeJump_encodeJ (k : BitVec 10) (r : BitVec 1) :
    decodeJump (encodeJ k r) = if r.getLsbD 0 then .ret else .jmp k := by
  rw [decodeJump, selector_encodeJ, imm10Field_encodeJ]

theorem decodeLoadStore_ld : decodeLoadStore (encodeLS 0b10 rd rs1) = .ok (.ld rd rs1) := by
  rw [decodeLoadStore, (selectors_encodeLS _ _ _).1, (selectors_encodeLS _ _ _).2, rdField_encodeLS, rs1Field_encodeLS]
  rfl

theorem decodeLoadStore_str : decodeLoadStore (encodeLS 0b01 rd rs1) = .ok (.str rd rs1) := by
  rw [decodeLoadStore, (selectors_encodeLS _ _ _).1, (selectors_encodeLS _ _ _).2, rdField_encodeLS, rs1Field_encodeLS]
  rfl

theorem decodeShift_encodeS (ad : BitVec 2) (n : BitVec 6) :
    decodeShift (encodeS ad rs1 n) =
      if n.msb then .error .negativeAmount
      else .ok <| match ad.getLsbD 1, ad.getLsbD 0 with
        | false, false => .shl rs1 n
        | true, false => .sal rs1 n
        | false, true => .shr rs1 n
        | true, true => .sar rs1 n := by
  rw [decodeShift, (selectors_encodeS _ _ _).1, (selectors_encodeS _ _ _).2.1, (selectors_encodeS _ _ _).2.2,
    rs1Field_encodeS, imm6Field_encodeS] <;> rfl

end Sys2Proof
end

