-- ==== Sys2Proof/Laws/Memory.lean ====
section
/-! SUPPORT. Reading after writing, and the canonical form: every write keeps it, and equal readings are equal lists. -/

namespace Sys2Proof.Machine.Memory

theorem read_insert (m : Memory) (a b : Nat) (v : Word) :
    (insert a v m).read b = if b = a then v else m.read b := by
  induction m with
  | nil => simp [insert, read]
  | cons c m ih =>
    obtain ⟨k, u⟩ := c
    unfold insert
    split
    · simp [read]
    · split
      · subst_vars; simp [read]; split <;> rfl
      · simp only [read, ih]
        by_cases hb : b = k
        · subst hb; simp_all; omega
        · simp [hb]

theorem read_filter (m : Memory) (a b : Nat) :
    Memory.read (m.filter fun c => c.1 != a) b = if b = a then unlisted a else m.read b := by
  induction m with
  | nil => simp only [List.filter_nil, read]; split <;> simp_all
  | cons c m ih =>
    obtain ⟨k, u⟩ := c
    by_cases hk : k = a
    · subst hk
      simp only [List.filter, bne_self_eq_false, ih, read]
      split <;> rfl
    · have : (k != a) = true := by simpa using hk
      simp only [List.filter, this, read, ih]
      by_cases hb : b = k
      · subst hb; simp [hk]
      · simp [hb]

/-- A read after a write: the written word at the written address, every other word as before (20_memory.md R34). -/
theorem read_write (m : Memory) (a b : Nat) (v : Word) :
    (m.write a v).read b = if b = a then v else m.read b := by
  unfold write
  split
  · rename_i h
    rw [read_filter, h]
  · exact read_insert m a b v

@[simp] theorem read_write_same (m : Memory) (a : Nat) (v : Word) : (m.write a v).read a = v := by
  simp [read_write]

theorem read_write_other (m : Memory) {a b : Nat} (v : Word) (h : b ≠ a) : (m.write a v).read b = m.read b := by
  simp [read_write, h]

theorem mem_insert {m : Memory} {a : Nat} {v : Word} {c : Nat × Word} (h : c ∈ insert a v m) :
    c = (a, v) ∨ c ∈ m := by
  induction m with
  | nil => simpa [insert] using h
  | cons d m ih =>
    unfold insert at h
    split at h
    · simpa using h
    · split at h
      · simp only [List.mem_cons] at h ⊢
        tauto
      · simp only [List.mem_cons] at h ⊢
        rcases h with h | h
        · tauto
        · rcases ih h with h | h <;> tauto

theorem pairwise_insert {m : Memory} (a : Nat) (v : Word) (h : m.Pairwise fun c d => c.1 < d.1) :
    (insert a v m).Pairwise fun c d => c.1 < d.1 := by
  induction m with
  | nil => simp [insert]
  | cons d m ih =>
    rw [List.pairwise_cons] at h
    unfold insert
    split
    · rename_i hlt
      refine List.pairwise_cons.2 ⟨?_, List.pairwise_cons.2 h⟩
      intro c hc
      rcases List.mem_cons.1 hc with rfl | hc
      · exact hlt
      · exact Nat.lt_trans hlt (h.1 c hc)
    · split
      · rename_i heq
        exact List.pairwise_cons.2 ⟨fun c hc => by simpa [heq] using h.1 c hc, h.2⟩
      · refine List.pairwise_cons.2 ⟨?_, ih h.2⟩
        intro c hc
        rcases mem_insert hc with rfl | hc
        · simp only; omega
        · exact h.1 c hc

/-- Every write inside the memory keeps the canonical form. -/
theorem wf_write {m : Memory} (h : m.wf) {a : Nat} (ha : a < memWords) (v : Word) : (m.write a v).wf := by
  unfold write
  split
  · exact ⟨h.1.filter _, fun c hc => h.2 c (List.mem_filter.1 hc).1⟩
  · rename_i hne
    refine ⟨pairwise_insert a v h.1, fun c hc => ?_⟩
    rcases mem_insert hc with rfl | hc
    · exact ⟨ha, hne⟩
    · exact h.2 c hc

@[simp] theorem wf_nil : wf [] := by simp [wf]

end Sys2Proof.Machine.Memory
end

