-- ==== Sys2Proof/Laws/Launch.lean ====
section
/-! SUPPORT. What loading a list of words does to a memory. -/

namespace Sys2Proof.Machine

/-- The words of the image where it was placed, every other word as before (70_reset_and_hazards.md R166). -/
theorem read_loadImage (base : Nat) (image : List Word) (m : Memory) (a : Nat) :
    (loadImage base image m).read a =
      if base ≤ a ∧ a < base + image.length then image[a - base]?.getD (m.read a) else m.read a := by
  induction image generalizing base m with
  | nil => simp [loadImage]
  | cons w ws ih =>
    simp only [loadImage, ih, Memory.read_write, List.length_cons]
    by_cases h : a = base
    · subst h; simp
    · by_cases hin : base + 1 ≤ a ∧ a < base + 1 + ws.length
      · have hout : base ≤ a ∧ a < base + (ws.length + 1) := by omega
        have hidx : a - base = (a - (base + 1)) + 1 := by omega
        simp [hin, hout, hidx, h]
      · have hout : ¬(base ≤ a ∧ a < base + (ws.length + 1)) := by omega
        rw [if_neg hin, if_neg hout, if_neg h]

/-- Loading words inside the memory keeps the canonical form. -/
theorem wf_loadImage {base : Nat} {image : List Word} {m : Memory} (hm : m.wf)
    (h : base + image.length ≤ memWords) : (loadImage base image m).wf := by
  induction image generalizing base m with
  | nil => exact hm
  | cons w ws ih =>
    rw [List.length_cons] at h
    exact ih (Memory.wf_write hm (by omega) w) (by omega)

end Sys2Proof.Machine
end

