-- ==== Sys2Proof/Laws/State.lean ====
section
/-! SUPPORT. One lemma per field per update of the state, and what reading a register gives after each update. -/

namespace Sys2Proof.Machine

namespace State

variable (s : State) (r : Reg) (v t : Word) (m : Memory)

@[simp] theorem setReg_regs : (s.setReg r v).regs = s.regs.set r v := rfl
@[simp] theorem setReg_pc : (s.setReg r v).pc = s.pc := rfl
@[simp] theorem setReg_mem : (s.setReg r v).mem = s.mem := rfl
@[simp] theorem setReg_halted : (s.setReg r v).halted = s.halted := rfl
@[simp] theorem setReg_cfg : (s.setReg r v).cfg = s.cfg := rfl

@[simp] theorem setPc_regs : (s.setPc t).regs = s.regs := rfl
@[simp] theorem setPc_pc : (s.setPc t).pc = t := rfl
@[simp] theorem setPc_mem : (s.setPc t).mem = s.mem := rfl
@[simp] theorem setPc_halted : (s.setPc t).halted = s.halted := rfl
@[simp] theorem setPc_cfg : (s.setPc t).cfg = s.cfg := rfl

@[simp] theorem setMem_regs : (s.setMem m).regs = s.regs := rfl
@[simp] theorem setMem_pc : (s.setMem m).pc = s.pc := rfl
@[simp] theorem setMem_mem : (s.setMem m).mem = m := rfl
@[simp] theorem setMem_halted : (s.setMem m).halted = s.halted := rfl
@[simp] theorem setMem_cfg : (s.setMem m).cfg = s.cfg := rfl

@[simp] theorem halt_regs : s.halt.regs = s.regs := rfl
@[simp] theorem halt_pc : s.halt.pc = s.pc := rfl
@[simp] theorem halt_mem : s.halt.mem = s.mem := rfl
@[simp] theorem halt_halted : s.halt.halted = true := rfl
@[simp] theorem halt_cfg : s.halt.cfg = s.cfg := rfl

@[simp] theorem advance_regs : s.advance.regs = s.regs := rfl
@[simp] theorem advance_pc : s.advance.pc = s.pc + 1 := rfl
@[simp] theorem advance_mem : s.advance.mem = s.mem := rfl
@[simp] theorem advance_halted : s.advance.halted = s.halted := rfl
@[simp] theorem advance_cfg : s.advance.cfg = s.cfg := rfl

@[simp] theorem readReg_x0 : s.readReg .x0 = 0 := rfl
@[simp] theorem readReg_pc : s.readReg .pc = s.pc := rfl

/-- A register other than x4 reads the same after any update that keeps the stored registers. -/
theorem readReg_congr {s u : State} (h : u.regs = s.regs) {r : Reg} (hr : r ≠ .pc) : u.readReg r = s.readReg r := by
  cases r <;> simp_all [readReg]

@[simp] theorem readReg_setMem : (s.setMem m).readReg r = s.readReg r := by cases r <;> rfl
@[simp] theorem readReg_halt : s.halt.readReg r = s.readReg r := by cases r <;> rfl

theorem readReg_setPc {r : Reg} (hr : r ≠ .pc) : (s.setPc t).readReg r = s.readReg r :=
  readReg_congr (setPc_regs s t) hr
theorem readReg_advance {r : Reg} (hr : r ≠ .pc) : s.advance.readReg r = s.readReg r :=
  readReg_congr (advance_regs s) hr

/-- What was stored is read back; x0 stays zero (10_state.md R13, R14). -/
theorem readReg_setReg_same {r : Reg} (hr : r ≠ .pc) : (s.setReg r v).readReg r = if r = .x0 then 0 else v := by
  cases r <;> simp_all [readReg, setReg, Regs.set]

/-- Storing one register leaves every other as it was. -/
theorem readReg_setReg_other {r q : Reg} (h : q ≠ r) : (s.setReg r v).readReg q = s.readReg q := by
  cases r <;> cases q <;> first | rfl | exact absurd rfl h

end State

end Sys2Proof.Machine
end

