-- ==== Sys2Proof/Laws/Ops.lean ====
section
/-! SUPPORT. One lemma for each shared operation that says everything it can do, and what `exec` and `step` can do to
the memory, the parameters and the halted flag. -/

namespace Sys2Proof.Machine

theorem wordIndex_lt {mode : AddrMode} {a : Word} {n : Nat} (h : wordIndex mode a = some n) : n < memWords := by
  unfold wordIndex at h
  split at h
  · simp_all
  · cases mode
    · simp at h
    · simp only [Option.some.injEq] at h
      subst h
      exact Nat.mod_lt _ (by decide)

theorem wordIndex_of_lt (mode : AddrMode) {a : Word} (h : a.toNat < memWords) : wordIndex mode a = some a.toNat := by
  simp [wordIndex, h]

theorem memRead_ok {s : State} {kind : AccessKind} {a v : Word} (h : s.memRead kind a = .ok v) :
    ∃ n, wordIndex s.cfg.addrMode a = some n ∧ s.mem.read n = v := by
  unfold State.memRead at h
  split at h
  · cases h
  · cases h; exact ⟨_, ‹_›, rfl⟩

theorem memRead_of_wordIndex {s : State} (kind : AccessKind) {a : Word} {n : Nat}
    (h : wordIndex s.cfg.addrMode a = some n) : s.memRead kind a = .ok (s.mem.read n) := by
  rw [State.memRead, h]

/-- An address is the one thing a read can fault on (60_exceptions.md R141, F1 and F4). -/
theorem memRead_error {s : State} {kind : AccessKind} {a : Word} {f : Fault} (h : s.memRead kind a = .error f) :
    wordIndex s.cfg.addrMode a = none ∧ f = .addressOutOfRange kind a := by
  unfold State.memRead at h
  split at h
  · cases h; exact ⟨‹_›, rfl⟩
  · cases h

theorem memWrite_ok {s t : State} {a v : Word} (h : s.memWrite a v = .ok t) :
    ∃ n, wordIndex s.cfg.addrMode a = some n ∧ t = s.setMem (s.mem.write n v) := by
  unfold State.memWrite at h
  split at h
  · cases h
  · cases h; exact ⟨_, ‹_›, rfl⟩

theorem memWrite_error {s : State} {a v : Word} {f : Fault} (h : s.memWrite a v = .error f) :
    wordIndex s.cfg.addrMode a = none ∧ f = .addressOutOfRange .store a := by
  unfold State.memWrite at h
  split at h
  · cases h; exact ⟨‹_›, rfl⟩
  · cases h

theorem writeBack_next {i : Instr} {rd : Reg} {v : Word} {s t : State} (h : writeBack i rd v s = .next t) :
    rd ≠ .pc ∧ t = (s.setReg rd v).advance := by
  unfold writeBack refusePc at h
  split at h
  · cases h
  · cases h; exact ⟨‹_›, rfl⟩

theorem shiftMode_next {i : Instr} {rs1 : Reg} {imm6 : BitVec 6} {f : Word → Nat → Word} {s t : State}
    (h : shiftMode i rs1 imm6 f s = .next t) :
    imm6.msb = false ∧ rs1 ≠ .pc ∧ t = (s.setReg rs1 (f (s.readReg rs1) (shiftAmount imm6))).advance := by
  unfold shiftMode at h
  split at h
  · cases h
  · exact ⟨Bool.eq_false_iff.2 ‹_›, writeBack_next h⟩

theorem execLd_next {rd rs1 : Reg} {s t : State} (h : execLd rd rs1 s = .next t) :
    rd ≠ .pc ∧ ∃ n, wordIndex s.cfg.addrMode (loadAddress rs1 s) = some n ∧
      t = (s.setReg rd (s.mem.read n)).advance := by
  unfold execLd refusePc at h
  split at h
  · cases h
  · refine ⟨‹_›, ?_⟩
    split at h
    · cases h
    · rename_i v hv
      obtain ⟨n, hn, hr⟩ := memRead_ok hv
      cases h
      exact ⟨n, hn, by rw [hr]⟩

theorem execStr_next {rd rs1 : Reg} {s t : State} (h : execStr rd rs1 s = .next t) :
    ∃ n, wordIndex s.cfg.addrMode (storeAddress rd s) = some n ∧
      t = (s.setMem (s.mem.write n (s.readReg rs1))).advance := by
  unfold execStr at h
  split at h
  · cases h
  · rename_i u hu
    obtain ⟨n, hn, rfl⟩ := memWrite_ok hu
    cases h
    exact ⟨n, hn, rfl⟩

theorem writeBack_fault {i : Instr} {rd : Reg} {v : Word} {s : State} {f : Fault}
    (h : writeBack i rd v s = .fault f) : rd = .pc ∧ f = .writeToPC s.pc (encode i) := by
  unfold writeBack refusePc at h
  split at h
  · cases h; exact ⟨‹_›, rfl⟩
  · cases h

theorem shiftMode_fault {i : Instr} {rs1 : Reg} {imm6 : BitVec 6} {g : Word → Nat → Word} {s : State} {f : Fault}
    (h : shiftMode i rs1 imm6 g s = .fault f) :
    (imm6.msb = true ∧ f = .illegalInstruction s.pc (encode i)) ∨ (rs1 = .pc ∧ f = .writeToPC s.pc (encode i)) := by
  unfold shiftMode at h
  split at h
  · cases h; exact .inl ⟨‹_›, rfl⟩
  · exact .inr (writeBack_fault h)

theorem execLd_fault {rd rs1 : Reg} {s : State} {f : Fault} (h : execLd rd rs1 s = .fault f) :
    (rd = .pc ∧ f = .writeToPC s.pc (encode (.ld rd rs1))) ∨
      (rd ≠ .pc ∧ s.memRead .load (loadAddress rs1 s) = .error f) := by
  unfold execLd refusePc at h
  split at h
  · cases h; exact .inl ⟨‹_›, rfl⟩
  · refine .inr ⟨‹_›, ?_⟩
    split at h
    · cases h; assumption
    · cases h

theorem execStr_fault {rd rs1 : Reg} {s : State} {f : Fault} (h : execStr rd rs1 s = .fault f) :
    s.memWrite (storeAddress rd s) (s.readReg rs1) = .error f := by
  unfold execStr at h
  split at h
  · cases h; assumption
  · cases h

/-- Everything an instruction that faults can say. -/
theorem exec_fault {i : Instr} {s : State} {f : Fault} (h : exec i s = .fault f) :
    (i.wellFormed = false ∧ f = .illegalInstruction s.pc (encode i)) ∨
    (destField i = some .pc ∧ f = .writeToPC s.pc (encode i)) ∨
    (∃ rd rs1, i = .ld rd rs1 ∧ rd ≠ .pc ∧ s.memRead .load (loadAddress rs1 s) = .error f) ∨
    (∃ rd rs1, i = .str rd rs1 ∧ s.memWrite (storeAddress rd s) (s.readReg rs1) = .error f) := by
  cases i with
  | halt | jmp | ret | beq | bne | bgt | blt => cases h
  | str rd rs1 => exact .inr (.inr (.inr ⟨rd, rs1, rfl, execStr_fault h⟩))
  | ld rd rs1 =>
    rcases execLd_fault h with ⟨rfl, hf⟩ | ⟨hr, hf⟩
    · exact .inr (.inl ⟨rfl, hf⟩)
    · exact .inr (.inr (.inl ⟨rd, rs1, rfl, hr, hf⟩))
  | shl | sal | shr | sar =>
    rcases shiftMode_fault h with ⟨hm, hf⟩ | ⟨rfl, hf⟩
    · exact .inl ⟨by simp [Instr.wellFormed, hm], hf⟩
    · exact .inr (.inl ⟨rfl, hf⟩)
  | addr | andr | nandr | orr | subr | addi | movu | movl =>
    obtain ⟨rfl, hf⟩ := writeBack_fault h
    exact .inr (.inl ⟨rfl, hf⟩)

/-- Everything an instruction with a next state can do, by the shape of its effect. -/
theorem exec_next {i : Instr} {s t : State} (h : exec i s = .next t) :
    (∃ rd v, destField i = some rd ∧ rd ≠ .pc ∧ t = (s.setReg rd v).advance) ∨
    (∃ imm10, i = .jmp imm10 ∧ t = (s.setReg .ra s.nextPc).setPc (s.target imm10)) ∨
    (∃ rd rs1 n, i = .str rd rs1 ∧ wordIndex s.cfg.addrMode (storeAddress rd s) = some n ∧
      t = (s.setMem (s.mem.write n (s.readReg rs1))).advance) ∨
    (i = .halt ∧ t = s.halt) ∨
    (∃ target, destField i = none ∧ t = s.setPc target) := by
  cases i with
  | halt => cases h; exact .inr (.inr (.inr (.inl ⟨rfl, rfl⟩)))
  | jmp imm10 => cases h; exact .inr (.inl ⟨imm10, rfl, rfl⟩)
  | ret | beq | bne | bgt | blt => cases h; exact .inr (.inr (.inr (.inr ⟨_, rfl, rfl⟩)))
  | str rd rs1 =>
    obtain ⟨n, hn, rfl⟩ := execStr_next h
    exact .inr (.inr (.inl ⟨rd, rs1, n, rfl, hn, rfl⟩))
  | ld rd rs1 =>
    obtain ⟨hrd, n, -, rfl⟩ := execLd_next h
    exact .inl ⟨rd, _, rfl, hrd, rfl⟩
  | shl rs1 | sal rs1 | shr rs1 | sar rs1 =>
    obtain ⟨-, hr, rfl⟩ := shiftMode_next h
    exact .inl ⟨rs1, _, rfl, hr, rfl⟩
  | addr rd | andr rd | nandr rd | orr rd | subr rd | addi rd | movu rd | movl rd =>
    obtain ⟨hr, rfl⟩ := writeBack_next h
    exact .inl ⟨rd, _, rfl, hr, rfl⟩

/-- Everything fetch and decode can do (10_state.md R21, 60_exceptions.md R143). -/
theorem fetchDecode_ok {s : State} {i : Instr} (h : s.fetchDecode = .ok i) :
    ∃ n insn, wordIndex s.cfg.addrMode s.pc = some n ∧ s.mem.read n = insn ∧
      decode s.cfg.strictUnused insn = .ok i ∧ writesPc i = false := by
  unfold State.fetchDecode at h
  split at h
  · cases h
  · rename_i insn hf
    obtain ⟨n, hn, hr⟩ := memRead_ok hf
    split at h
    · cases h
    · rename_i j hd
      split at h
      · cases h
      · cases h; exact ⟨n, insn, hn, hr, hd, Bool.eq_false_iff.2 ‹_›⟩

/-- Everything fetch and decode can report (R21, R143). -/
theorem fetchDecode_error {s : State} {f : Fault} (h : s.fetchDecode = .error f) :
    s.memRead .fetch s.pc = .error f ∨
    ∃ insn, s.memRead .fetch s.pc = .ok insn ∧
      ((∃ why, decode s.cfg.strictUnused insn = .error why ∧ f = .illegalInstruction s.pc insn) ∨
       ∃ i, decode s.cfg.strictUnused insn = .ok i ∧ writesPc i = true ∧ f = .writeToPC s.pc insn) := by
  unfold State.fetchDecode at h
  split at h
  · cases h; exact .inl ‹_›
  · rename_i insn hf
    refine .inr ⟨insn, hf, ?_⟩
    split at h
    · cases h; exact .inl ⟨_, ‹_›, rfl⟩
    · split at h
      · cases h; exact .inr ⟨_, ‹_›, ‹_›, rfl⟩
      · cases h

/-- Everything a step that faults can say. -/
theorem step_fault {s : State} {f : Fault} (h : step s = .fault f) :
    s.halted = false ∧ (s.fetchDecode = .error f ∨ ∃ i, s.fetchDecode = .ok i ∧ exec i s = .fault f) := by
  unfold step at h
  split at h
  · cases h
  · refine ⟨Bool.eq_false_iff.2 ‹_›, ?_⟩
    split at h
    · cases h; exact .inl ‹_›
    · exact .inr ⟨_, ‹_›, h⟩

/-- Everything a step with a next state can do. -/
theorem step_next {s t : State} (h : step s = .next t) :
    (s.halted = true ∧ t = s) ∨ (s.halted = false ∧ ∃ i, s.fetchDecode = .ok i ∧ exec i s = .next t) := by
  unfold step at h
  split at h
  · cases h; exact .inl ⟨‹_›, rfl⟩
  · refine .inr ⟨Bool.eq_false_iff.2 ‹_›, ?_⟩
    split at h
    · cases h
    · exact ⟨_, ‹_›, h⟩

end Sys2Proof.Machine
end

