-- ==== Sys2Proof/Laws/PerInstr.lean ====
section
/-! SUPPORT. The per-instruction families: the encoded word lies in its row of the opcode table, and its unused bits
are clear (30_encoding.md R69). -/

namespace Sys2Proof.Laws

/-- The opcode and the selectors of the R, I and B formats, under the mask of their rows. -/
theorem mask_of_four (a b c d : BitVec 4) : (a ++ b ++ c ++ d) &&& 0x000F#16 = 0#12 ++ d := by
  apply BitVec.eq_of_getLsbD_eq
  intro k hk
  interval_cases k <;> simp only [BitVec.getLsbD_and, BitVec.getLsbD_append] <;> simp

theorem mask_of_immediate (a : BitVec 8) (b c : BitVec 4) : (a ++ b ++ c) &&& 0x000F#16 = 0#12 ++ c := by
  apply BitVec.eq_of_getLsbD_eq
  intro k hk
  interval_cases k <;> simp only [BitVec.getLsbD_and, BitVec.getLsbD_append] <;> simp

theorem mask_of_jump (a : BitVec 10) (r : BitVec 1) (op : BitVec 4) :
    (a ++ 0#1 ++ r ++ op) &&& 0x001F#16 = 0#11 ++ r ++ op := by
  apply BitVec.eq_of_getLsbD_eq
  intro k hk
  interval_cases k <;> simp only [BitVec.getLsbD_and, BitVec.getLsbD_append] <;> simp

theorem mask_of_load_store (a : BitVec 4) (ls : BitVec 2) (d op : BitVec 4) :
    (a ++ 0#2 ++ ls ++ d ++ op) &&& 0x030F#16 = 0#6 ++ ls ++ 0#4 ++ op := by
  apply BitVec.eq_of_getLsbD_eq
  intro k hk
  interval_cases k <;> simp only [BitVec.getLsbD_and, BitVec.getLsbD_append] <;> simp

theorem mask_of_shift (a : BitVec 4) (n : BitVec 6) (ad : BitVec 2) (op : BitVec 4) (h : n.msb = false) :
    (a ++ n ++ ad ++ op) &&& 0x083F#16 = 0#10 ++ ad ++ op := by
  rw [BitVec.msb_eq_getLsbD_last] at h
  apply BitVec.eq_of_getLsbD_eq
  intro k hk
  interval_cases k <;> simp only [BitVec.getLsbD_and, BitVec.getLsbD_append] <;> simp_all

theorem unused_of_jump (a : BitVec 10) (r : BitVec 1) (op : BitVec 4) :
    (a ++ 0#1 ++ r ++ op) &&& 0x0020#16 = 0 := by
  apply BitVec.eq_of_getLsbD_eq
  intro k hk
  interval_cases k <;> simp only [BitVec.getLsbD_and, BitVec.getLsbD_append] <;> simp

theorem unused_of_load_store (a : BitVec 4) (ls : BitVec 2) (d op : BitVec 4) :
    (a ++ 0#2 ++ ls ++ d ++ op) &&& 0x0C00#16 = 0 := by
  apply BitVec.eq_of_getLsbD_eq
  intro k hk
  interval_cases k <;> simp only [BitVec.getLsbD_and, BitVec.getLsbD_append] <;> simp

/-- An encoded well-formed instruction is a word of its row of spec/opcode_table.json. -/
def TableRow.Statement (i : Instr) : Prop := i.wellFormed = true → i.mnemonic.matchesWord (encode i) = true

/-- The encoder writes every unused bit as 0. -/
def UnusedClear.Statement (i : Instr) : Prop := encode i &&& i.unusedMask = 0

theorem TableRow.halt : TableRow.Statement .halt :=
  fun _ => rfl

theorem TableRow.addr (rd rs1 rs2 : Reg) : TableRow.Statement (.addr rd rs1 rs2) :=
  fun _ => beq_iff_eq.2 (mask_of_four _ _ _ _)

theorem TableRow.andr (rd rs1 rs2 : Reg) : TableRow.Statement (.andr rd rs1 rs2) :=
  fun _ => beq_iff_eq.2 (mask_of_four _ _ _ _)

theorem TableRow.nandr (rd rs1 rs2 : Reg) : TableRow.Statement (.nandr rd rs1 rs2) :=
  fun _ => beq_iff_eq.2 (mask_of_four _ _ _ _)

theorem TableRow.orr (rd rs1 rs2 : Reg) : TableRow.Statement (.orr rd rs1 rs2) :=
  fun _ => beq_iff_eq.2 (mask_of_four _ _ _ _)

theorem TableRow.subr (rd rs1 rs2 : Reg) : TableRow.Statement (.subr rd rs1 rs2) :=
  fun _ => beq_iff_eq.2 (mask_of_four _ _ _ _)

theorem TableRow.addi (rd : Reg) (imm8 : BitVec 8) : TableRow.Statement (.addi rd imm8) :=
  fun _ => beq_iff_eq.2 (mask_of_immediate _ _ _)

theorem TableRow.movu (rd : Reg) (imm8 : BitVec 8) : TableRow.Statement (.movu rd imm8) :=
  fun _ => beq_iff_eq.2 (mask_of_immediate _ _ _)

theorem TableRow.movl (rd : Reg) (imm8 : BitVec 8) : TableRow.Statement (.movl rd imm8) :=
  fun _ => beq_iff_eq.2 (mask_of_immediate _ _ _)

theorem TableRow.jmp (imm10 : BitVec 10) : TableRow.Statement (.jmp imm10) :=
  fun _ => beq_iff_eq.2 (mask_of_jump _ _ _)

theorem TableRow.ret : TableRow.Statement .ret :=
  fun _ => beq_iff_eq.2 (mask_of_jump _ _ _)

theorem TableRow.beq (rs1 rs2 : Reg) (imm4 : BitVec 4) : TableRow.Statement (.beq rs1 rs2 imm4) :=
  fun _ => beq_iff_eq.2 (mask_of_four _ _ _ _)

theorem TableRow.bne (rs1 rs2 : Reg) (imm4 : BitVec 4) : TableRow.Statement (.bne rs1 rs2 imm4) :=
  fun _ => beq_iff_eq.2 (mask_of_four _ _ _ _)

theorem TableRow.bgt (rs1 rs2 : Reg) (imm4 : BitVec 4) : TableRow.Statement (.bgt rs1 rs2 imm4) :=
  fun _ => beq_iff_eq.2 (mask_of_four _ _ _ _)

theorem TableRow.blt (rs1 rs2 : Reg) (imm4 : BitVec 4) : TableRow.Statement (.blt rs1 rs2 imm4) :=
  fun _ => beq_iff_eq.2 (mask_of_four _ _ _ _)

theorem TableRow.ld (rd rs1 : Reg) : TableRow.Statement (.ld rd rs1) :=
  fun _ => beq_iff_eq.2 (mask_of_load_store _ _ _ _)

theorem TableRow.str (rd rs1 : Reg) : TableRow.Statement (.str rd rs1) :=
  fun _ => beq_iff_eq.2 (mask_of_load_store _ _ _ _)

theorem TableRow.shl (rs1 : Reg) (imm6 : BitVec 6) : TableRow.Statement (.shl rs1 imm6) :=
  fun h => beq_iff_eq.2 (mask_of_shift _ _ _ _ (by simpa [Instr.wellFormed] using h))

theorem TableRow.sal (rs1 : Reg) (imm6 : BitVec 6) : TableRow.Statement (.sal rs1 imm6) :=
  fun h => beq_iff_eq.2 (mask_of_shift _ _ _ _ (by simpa [Instr.wellFormed] using h))

theorem TableRow.shr (rs1 : Reg) (imm6 : BitVec 6) : TableRow.Statement (.shr rs1 imm6) :=
  fun h => beq_iff_eq.2 (mask_of_shift _ _ _ _ (by simpa [Instr.wellFormed] using h))

theorem TableRow.sar (rs1 : Reg) (imm6 : BitVec 6) : TableRow.Statement (.sar rs1 imm6) :=
  fun h => beq_iff_eq.2 (mask_of_shift _ _ _ _ (by simpa [Instr.wellFormed] using h))

theorem UnusedClear.halt : UnusedClear.Statement .halt := rfl

theorem UnusedClear.addr (rd rs1 rs2 : Reg) : UnusedClear.Statement (.addr rd rs1 rs2) := BitVec.and_zero

theorem UnusedClear.andr (rd rs1 rs2 : Reg) : UnusedClear.Statement (.andr rd rs1 rs2) := BitVec.and_zero

theorem UnusedClear.nandr (rd rs1 rs2 : Reg) : UnusedClear.Statement (.nandr rd rs1 rs2) := BitVec.and_zero

theorem UnusedClear.orr (rd rs1 rs2 : Reg) : UnusedClear.Statement (.orr rd rs1 rs2) := BitVec.and_zero

theorem UnusedClear.subr (rd rs1 rs2 : Reg) : UnusedClear.Statement (.subr rd rs1 rs2) := BitVec.and_zero

theorem UnusedClear.addi (rd : Reg) (imm8 : BitVec 8) : UnusedClear.Statement (.addi rd imm8) := BitVec.and_zero

theorem UnusedClear.movu (rd : Reg) (imm8 : BitVec 8) : UnusedClear.Statement (.movu rd imm8) := BitVec.and_zero

theorem UnusedClear.movl (rd : Reg) (imm8 : BitVec 8) : UnusedClear.Statement (.movl rd imm8) := BitVec.and_zero

theorem UnusedClear.jmp (imm10 : BitVec 10) : UnusedClear.Statement (.jmp imm10) := unused_of_jump _ _ _

theorem UnusedClear.ret : UnusedClear.Statement .ret := rfl

theorem UnusedClear.beq (rs1 rs2 : Reg) (imm4 : BitVec 4) : UnusedClear.Statement (.beq rs1 rs2 imm4) := BitVec.and_zero

theorem UnusedClear.bne (rs1 rs2 : Reg) (imm4 : BitVec 4) : UnusedClear.Statement (.bne rs1 rs2 imm4) := BitVec.and_zero

theorem UnusedClear.bgt (rs1 rs2 : Reg) (imm4 : BitVec 4) : UnusedClear.Statement (.bgt rs1 rs2 imm4) := BitVec.and_zero

theorem UnusedClear.blt (rs1 rs2 : Reg) (imm4 : BitVec 4) : UnusedClear.Statement (.blt rs1 rs2 imm4) := BitVec.and_zero

theorem UnusedClear.ld (rd rs1 : Reg) : UnusedClear.Statement (.ld rd rs1) := unused_of_load_store _ _ _ _

theorem UnusedClear.str (rd rs1 : Reg) : UnusedClear.Statement (.str rd rs1) := unused_of_load_store _ _ _ _

theorem UnusedClear.shl (rs1 : Reg) (imm6 : BitVec 6) : UnusedClear.Statement (.shl rs1 imm6) := BitVec.and_zero

theorem UnusedClear.sal (rs1 : Reg) (imm6 : BitVec 6) : UnusedClear.Statement (.sal rs1 imm6) := BitVec.and_zero

theorem UnusedClear.shr (rs1 : Reg) (imm6 : BitVec 6) : UnusedClear.Statement (.shr rs1 imm6) := BitVec.and_zero

theorem UnusedClear.sar (rs1 : Reg) (imm6 : BitVec 6) : UnusedClear.Statement (.sar rs1 imm6) := BitVec.and_zero

end Sys2Proof.Laws
end

