-- ==== Sys2Proof/Laws/Pseudo.lean ====
section
/-! SUPPORT. What a list of instructions executed one after another can do. -/

namespace Sys2Proof.Machine

@[simp] theorem execList_nil (s : State) : execList [] s = .next s := rfl

theorem execList_cons_next {i : Instr} {s t : State} (h : exec i s = .next t) (rest : List Instr) :
    execList (i :: rest) s = execList rest t := by
  rw [execList, h]

theorem execList_cons_fault {i : Instr} {s : State} {f : Fault} (h : exec i s = .fault f) (rest : List Instr) :
    execList (i :: rest) s = .fault f := by
  rw [execList, h]

/-- A pair of instructions with a next state passes through the state between them. -/
theorem execList_pair_next {i j : Instr} {s u : State} (h : execList [i, j] s = .next u) :
    ∃ t, exec i s = .next t ∧ exec j t = .next u := by
  cases hi : exec i s with
  | next t =>
    rw [execList_cons_next hi] at h
    refine ⟨t, rfl, ?_⟩
    cases hj : exec j t with
    | next v => rw [execList_cons_next hj] at h; simpa using h
    | fault f => rw [execList_cons_fault hj] at h; cases h
    | refused r => rw [execList, hj] at h; cases h
  | fault f => rw [execList_cons_fault hi] at h; cases h
  | refused r => rw [execList, hi] at h; cases h

end Sys2Proof.Machine
end

