-- ==== Sys2Proof/Laws/Run.lean ====
section
/-! SUPPORT. Runs: the first step of a run, a run cut in two, and the host's own notion of a run. -/

namespace Sys2Proof.Machine

theorem runSteps_next {s t : State} (h : step s = .next t) (k : Nat) : runSteps (k + 1) s = runSteps k t := by
  simp [runSteps, h]

theorem runSteps_fault {s : State} {f : Fault} (h : step s = .fault f) (k : Nat) : runSteps (k + 1) s = .fault f := by
  simp [runSteps, h]

theorem runSteps_refused {s : State} {r : Refusal} (h : step s = .refused r) (k : Nat) :
    runSteps (k + 1) s = .refused r := by
  simp [runSteps, h]

/-- A run of `j + k` steps is a run of `k` steps from where the first `j` steps led. -/
theorem runSteps_add {j : Nat} {s t : State} (h : runSteps j s = .next t) (k : Nat) :
    runSteps (j + k) s = runSteps k t := by
  induction j generalizing s with
  | zero => cases h; rw [Nat.zero_add]
  | succ j ih =>
    rw [Nat.add_right_comm]
    cases hs : step s with
    | next u => rw [runSteps_next hs] at h ⊢; exact ih h
    | fault f => rw [runSteps_fault hs] at h; cases h
    | refused r => rw [runSteps_refused hs] at h; cases h

/-- A property of states that every step keeps holds at the end of every run. -/
theorem runSteps_keeps {P : State → Prop} (hP : ∀ s t, P s → step s = .next t → P t) {k : Nat} {s t : State}
    (hs : P s) (h : runSteps k s = .next t) : P t := by
  induction k generalizing s with
  | zero => cases h; exact hs
  | succ k ih =>
    cases hst : step s with
    | next u => rw [runSteps_next hst] at h; exact ih (hP s u hs hst) h
    | fault f => rw [runSteps_fault hst] at h; cases h
    | refused r => rw [runSteps_refused hst] at h; cases h

/-- `runSteps` is the run of Host/Core.lean. -/
theorem runSteps_eq_core_run (k : Nat) (s : State) : runSteps k s = Host.Core.run Sys2Proof.core k s := by
  induction k generalizing s with
  | zero => rfl
  | succ k ih =>
    refine Eq.trans ?_ (Host.Core.run.eq_2 Sys2Proof.core s k).symm
    split
    · rename_i u hu; exact (runSteps_next hu k).trans (ih u)
    · rename_i f hf; exact runSteps_fault hf k
    · rename_i r hr; exact runSteps_refused hr k

end Sys2Proof.Machine
end

