-- ==== Sys2Proof/Tests/Slice0.lean ====
section
/-! SUPPORT. The model's own tests, each about one step (or one function) on a small state, and a witness for each
statement with hypotheses. Expected results are rows of 95_test_vectors.md, section 2, unless a docstring says otherwise. -/

namespace Sys2Proof.Tests

open Machine

/-- The reset state at `pc`, with `insn` there. -/
def start (pc insn : Word) : State := { State.reset with pc := pc, mem := [(pc.toNat, insn)] }

/-- One more word with a value. -/
def put (s : State) (a : Nat) (v : Word) : State := s.setMem (s.mem.write a v)

/-- The same state under other parameters. -/
def under (cfg : Config) (s : State) : State := { s with cfg := cfg }

def wrapping : Config := { defaultConfig with addrMode := .wrap }

def strict : Config := { defaultConfig with strictUnused := true }

def plainSal : Config := { defaultConfig with salMode := .asShl }

/-- `r` is a next state in which the register `reg` reads `v` and `pc` is `pc`. -/
def gives (r : Result) (reg : Reg) (v pc : Word) : Bool :=
  match r with
  | .next t => t.readReg reg == v && t.pc == pc
  | .fault _ => false
  | .refused _ => false

/-- `r` is a next state in which the word at `a` is `v` and `pc` is `pc`. -/
def stores (r : Result) (a : Nat) (v pc : Word) : Bool :=
  match r with
  | .next t => t.mem.read a == v && t.pc == pc
  | .fault _ => false
  | .refused _ => false

/-- `r` is the fault `f`. -/
def faults (r : Result) (f : Fault) : Bool :=
  match r with
  | .next _ => false
  | .fault g => g == f
  | .refused _ => false

/-- `r` is a next state with the halted flag set and `pc` at `pc`. -/
def halts (r : Result) (pc : Word) : Bool :=
  match r with
  | .next t => t.halted && t.pc == pc
  | .fault _ => false
  | .refused _ => false

/-- The word decodes to the instruction. -/
def decodesTo (strictUnused : Bool) (w : Word) (i : Instr) : Bool :=
  match decode strictUnused w with
  | .ok j => j == i
  | .error _ => false

/-- The word is illegal for the reason given. -/
def illegal (strictUnused : Bool) (w : Word) (why : Illegal) : Bool :=
  match decode strictUnused w with
  | .ok _ => false
  | .error e => e == why

/-! ### WellFormed: every check refuses an ill-formed term (30_encoding.md R64, R68) -/

theorem test_wellFormed_refuses_shl_32 : (Instr.shl .x5 32).wellFormed = false := by decide
theorem test_wellFormed_refuses_sal_32 : (Instr.sal .x5 32).wellFormed = false := by decide
theorem test_wellFormed_refuses_shr_63 : (Instr.shr .x5 63).wellFormed = false := by decide
theorem test_wellFormed_refuses_sar_32 : (Instr.sar .x5 32).wellFormed = false := by decide
theorem test_wellFormed_accepts_31 : (Instr.shl .x5 31).wellFormed ∧ (Instr.sal .x5 31).wellFormed ∧
    (Instr.shr .x5 31).wellFormed ∧ (Instr.sar .x5 31).wellFormed := by decide

/-! ### Decode: every constructor's word, bit by bit from its format (section 2.8 and 30_encoding.md R54 to R60) -/

theorem test_decode_halt : decodesTo false 0b0000000000000000 .halt := by decide
theorem test_decode_addr : decodesTo false 0b0101011001110001 (.addr .x7 .x5 .x6) := by decide
theorem test_decode_andr : decodesTo false 0b0101011001110010 (.andr .x7 .x5 .x6) := by decide
theorem test_decode_nandr : decodesTo false 0b0101011001110011 (.nandr .x7 .x5 .x6) := by decide
theorem test_decode_orr : decodesTo false 0b0101011001110100 (.orr .x7 .x5 .x6) := by decide
theorem test_decode_subr : decodesTo false 0b0101011001110101 (.subr .x7 .x5 .x6) := by decide
theorem test_decode_addi : decodesTo false 0b1111111101010110 (.addi .x5 0xFF) := by decide
theorem test_decode_movu : decodesTo false 0b0001001001010111 (.movu .x5 0x12) := by decide
theorem test_decode_movl : decodesTo false 0b0011010001011000 (.movl .x5 0x34) := by decide
theorem test_decode_jmp : decodesTo false 0b1111111101001001 (.jmp 0x3FD) := by decide
theorem test_decode_ret : decodesTo false 0b0000000000011001 .ret := by decide
theorem test_decode_beq : decodesTo false 0b0111000000101010 (.beq .x7 .x0 0x2) := by decide
theorem test_decode_bne : decodesTo false 0b0101000011111011 (.bne .x5 .x0 0xF) := by decide
theorem test_decode_bgt : decodesTo false 0b0101000011011100 (.bgt .x5 .x0 0xD) := by decide
theorem test_decode_blt : decodesTo false 0b0101011000111101 (.blt .x5 .x6 0x3) := by decide
theorem test_decode_ld : decodesTo false 0b0011001001011110 (.ld .x5 .sp) := by decide
theorem test_decode_str : decodesTo false 0b0110000100111110 (.str .sp .x6) := by decide
theorem test_decode_shl : decodesTo false 0b0101000011001111 (.shl .x5 3) := by decide
theorem test_decode_sal : decodesTo false 0b0101000001101111 (.sal .x5 1) := by decide
theorem test_decode_shr : decodesTo false 0b0101000100011111 (.shr .x5 4) := by decide
theorem test_decode_sar : decodesTo false 0b0101000100111111 (.sar .x5 4) := by decide

/-- The illegal words of section 2.8. -/
theorem test_decode_illegal : illegal false 0x506E .unassignedSelector ∧ illegal false 0x536E .unassignedSelector ∧
    illegal false 0x580F .negativeAmount ∧ illegal false 0x5FFF .negativeAmount := by decide

/-- Unused bits set: ignored, or illegal under `STRICT_UNUSED = true` (sections 2.3, 2.5, 2.7). -/
theorem test_decode_unused_bits : decodesTo false 0xFFF9 .ret ∧ decodesTo false 0x00A9 (.jmp 2) ∧
    decodesTo false 0xABC0 .halt ∧ decodesTo false 0x3E5E (.ld .x5 .sp) ∧ illegal true 0xFFF9 .unusedBitSet ∧
    illegal true 0x00A9 .unusedBitSet ∧ illegal true 0xABC0 .unusedBitSet ∧ illegal true 0x3E5E .unusedBitSet ∧
    decodesTo true 0x325E (.ld .x5 .sp) ∧ illegal true 0x506E .unassignedSelector := by decide

/-- The host's two questions on one row: the decoder's instruction, and the first step after reset (R85). -/
theorem test_host_interface : decodeTableWord 16 0x0075 = some (.subr .x7 .x0 .x0) ∧ decodeTableWord 16 0x506E = none ∧
    gives (step (State.reset.withFetchWord 16 0x0075)) .x7 0x0000 0x0001 := by decide

/-! ### One step: two theorems for each instruction -/

theorem test_addr_wraps : gives (step (((start 0x0010 0x5671).setReg .x5 0x8000).setReg .x6 0x8000)) .x7 0x0000 0x0011 := by decide
theorem test_addr_reads_pc : gives (step (start 0x0010 0x4051)) .x5 0x0010 0x0011 := by decide
theorem test_andr : gives (step (((start 0x0010 0x5672).setReg .x5 0x0F0F).setReg .x6 0x00FF)) .x7 0x000F 0x0011 := by decide
theorem test_andr_with_x0 : gives (step ((start 0x0010 0x5072).setReg .x5 0xFFFF)) .x7 0x0000 0x0011 := by decide
theorem test_nandr : gives (step (((start 0x0010 0x5673).setReg .x5 0x0F0F).setReg .x6 0x00FF)) .x7 0xFFF0 0x0011 := by decide
theorem test_nandr_of_zero : gives (step (start 0x0010 0x0073)) .x7 0xFFFF 0x0011 := by decide
theorem test_orr : gives (step (((start 0x0010 0x5674).setReg .x5 0x0F0F).setReg .x6 0x00FF)) .x7 0x0FFF 0x0011 := by decide
theorem test_orr_with_x0 : gives (step ((start 0x0010 0x5074).setReg .x5 0x8001)) .x7 0x8001 0x0011 := by decide
theorem test_subr_order : gives (step (((start 0x0010 0x5675).setReg .x5 0x0003).setReg .x6 0x0004)) .x7 0xFFFF 0x0011 := by decide
theorem test_subr_source_is_destination : gives (step ((start 0x0010 0x5555).setReg .x5 0xABCD)) .x5 0x0000 0x0011 := by decide
theorem test_addi_carries : gives (step ((start 0x0010 0x0156).setReg .x5 0x00FF)) .x5 0x0100 0x0011 := by decide
theorem test_addi_sign_extends : gives (step ((start 0x0010 0x8056).setReg .x5 0x0000)) .x5 0xFF80 0x0011 := by decide
theorem test_movu_keeps_lower : gives (step ((start 0x0010 0x1257).setReg .x5 0xABCD)) .x5 0x12CD 0x0011 := by decide
theorem test_movu_clears_upper : gives (step ((start 0x0010 0x0057).setReg .x5 0xFFFF)) .x5 0x00FF 0x0011 := by decide
theorem test_movl_keeps_upper : gives (step ((start 0x0010 0x3458).setReg .x5 0x12CD)) .x5 0x1234 0x0011 := by decide
theorem test_movl_no_sign_extension : gives (step ((start 0x0010 0xFF58).setReg .x5 0x0000)) .x5 0x00FF 0x0011 := by decide
theorem test_jmp_backward : gives (step ((start 0x0010 0xFF49).setReg .ra 0x1234)) .ra 0x0011 0x000D := by decide
theorem test_jmp_below_zero : gives (step (start 0x0100 0x8009)) .ra 0x0101 0xFF00 := by decide
theorem test_ret : gives (step ((start 0x0020 0x0019).setReg .ra 0x0001)) .ra 0x0001 0x0001 := by decide
theorem test_ret_unused_bits : gives (step ((start 0x0020 0xFFF9).setReg .ra 0x0007)) .ra 0x0007 0x0007 := by decide
theorem test_beq_taken : gives (step ((start 0x0000 0x702A).setReg .x7 0x0000)) .x7 0x0000 0x0002 := by decide
theorem test_beq_not_taken : gives (step ((start 0x0000 0x702A).setReg .x7 0x0001)) .x7 0x0001 0x0001 := by decide
theorem test_bne_taken : gives (step ((start 0x0004 0x50FB).setReg .x5 0x0003)) .x5 0x0003 0x0003 := by decide
theorem test_bne_not_taken : gives (step ((start 0x0004 0x553B).setReg .x5 0x1234)) .x5 0x1234 0x0005 := by decide
theorem test_bgt_signed_taken : gives (step (((start 0x0008 0x563C).setReg .x5 0x7FFF).setReg .x6 0x8000)) .x5 0x7FFF 0x000B := by decide
theorem test_bgt_signed_not_taken : gives (step ((start 0x0001 0x50FC).setReg .x5 0xFFFF)) .x5 0xFFFF 0x0002 := by decide
theorem test_blt_signed_taken : gives (step (((start 0x0008 0x563D).setReg .x5 0xFFFF).setReg .x6 0x0001)) .x5 0xFFFF 0x000B := by decide
theorem test_blt_equal_not_taken : gives (step (((start 0x0008 0x563D).setReg .x5 0x0005).setReg .x6 0x0005)) .x5 0x0005 0x0009 := by decide
theorem test_ld_own_word : gives (step (start 0x0010 0x425E)) .x5 0x425E 0x0011 := by decide
theorem test_ld_last_word : gives (step (put ((start 0x0010 0x625E).setReg .x6 0x03FF) 0x03FF 0x8001)) .x5 0x8001 0x0011 := by
  decide
theorem test_str : stores (step (((start 0x0010 0x613E).setReg .sp 0x03FF).setReg .x6 0x002A)) 0x03FF 0x002A 0x0011 := by
  decide
theorem test_str_over_itself : stores (step ((start 0x0010 0x514E).setReg .x5 0x0000)) 0x0010 0x0000 0x0011 := by decide
theorem test_shl : gives (step ((start 0x0010 0x50CF).setReg .x5 0x1234)) .x5 0x91A0 0x0011 := by decide
theorem test_shl_16 : gives (step ((start 0x0010 0x540F).setReg .x5 0xFFFF)) .x5 0x0000 0x0011 := by decide
theorem test_sal_keeps_sign : gives (step ((start 0x0010 0x506F).setReg .x5 0x4001)) .x5 0x0002 0x0011 := by decide
theorem test_sal_16 : gives (step ((start 0x0010 0x542F).setReg .x5 0x8001)) .x5 0x8000 0x0011 := by decide
theorem test_shr : gives (step ((start 0x0010 0x511F).setReg .x5 0x8000)) .x5 0x0800 0x0011 := by decide
theorem test_shr_15 : gives (step ((start 0x0010 0x53DF).setReg .x5 0x8000)) .x5 0x0001 0x0011 := by decide
theorem test_sar_rounds_down : gives (step ((start 0x0010 0x507F).setReg .x5 0xFFFD)) .x5 0xFFFE 0x0011 := by decide
theorem test_sar_31 : gives (step ((start 0x0010 0x57FF).setReg .x5 0x7FFF)) .x5 0x0000 0x0011 := by decide
theorem test_halt : halts (step (start 0x0001 0x0000)) 0x0001 := by decide
theorem test_halt_unused_bits : halts (step (start 0x0001 0xABC0)) 0x0001 := by decide

/-! ### Faults of a step -/

theorem test_fault_write_pc : faults (step ((start 0x0010 0x5041).setReg .x5 0x0020)) (.writeToPC 0x0010 0x5041) := by decide
theorem test_fault_write_pc_before_address :
    faults (step ((start 0x0010 0x624E).setReg .x6 0x0400)) (.writeToPC 0x0010 0x624E) := by decide
theorem test_fault_load_address : faults (step ((start 0x0010 0x625E).setReg .x6 0x0400))
    (.addressOutOfRange .load 0x0400) := by decide
theorem test_fault_store_address : faults (step ((start 0x0010 0x516E).setReg .x6 0x0400))
    (.addressOutOfRange .store 0x0400) := by decide
theorem test_fault_fetch_address : faults (step (start 0x0400 0x0001)) (.addressOutOfRange .fetch 0x0400) := by decide
theorem test_fault_illegal : faults (step (start 0x0010 0x506E)) (.illegalInstruction 0x0010 0x506E) := by decide
theorem test_fault_illegal_amount : faults (step (start 0x0010 0x5FFF)) (.illegalInstruction 0x0010 0x5FFF) := by decide
theorem test_fault_strict : faults (step (under strict (start 0x0010 0xFFF9))) (.illegalInstruction 0x0010 0xFFF9) := by decide

/-- 60_exceptions.md R141, "No other condition raises a fault": a load of a word that nothing has written, and the fetch
of one (the fill of log 4 is a `subr`). -/
theorem test_unwritten_word_runs : gives (step ((start 0x0010 0x625E).setReg .x6 0x03FF)) .x6 0x03FF 0x0011 ∧
    gives (step State.reset) .x5 0xA5A5 0x0001 := by decide

/-- Writing the fill to a word takes its cell out, so that equal memories are equal data (log 5). -/
theorem test_write_fill : Memory.write (Memory.write [] 5 7) 5 fillWord = [] := by decide

/-- Section 2.5 and 2.7 under `ADDR_MODE = wrap`: an address of 1024 is word 0, 0xFFFF is word 1023. -/
theorem test_wrap : gives (step (put (under wrapping ((start 0x0010 0x625E).setReg .x6 0xFFFF)) 0x03FF 0x1234)) .x5 0x1234 0x0011 ∧
    gives (step (put (under wrapping { State.reset with pc := 0x0400 }) 0 0x0053)) .x5 0xFFFF 0x0401 := by decide

/-- Section 2.6 under `SAL_MODE = as_shl`. -/
theorem test_sal_as_shl : gives (step (under plainSal ((start 0x0010 0x506F).setReg .x5 0x4001))) .x5 0x8002 0x0011 := by decide

/-! ### The loader and the assembler -/

/-- 20_memory.md R35: one word's two bytes in either order, and an odd file refused (log 6). -/
theorem test_image_bytes : imageOfBytes .big [0x00, 0x89] = some [0x0089] ∧ imageOfBytes .little [0x89, 0x00] = some [0x0089] ∧
    imageOfBytes .big [0x00] = none := by decide

/-- Examples S7 and S8 of section 1: the offsets -1 and -2 of the words the source prints. -/
theorem test_labels_of_examples : (branchOffset [("Loop", 0)] 1 "Loop").map (fun k => encode (.bgt .x5 .x0 k)) = some 0x50FC ∧
    (branchOffset [("Loop", 2)] 4 "Loop").map (fun k => encode (.beq .x5 .x0 k)) = some 0x50EA := by decide

/-- Example S11 of section 1, its first four lines: words 0 to 3 of the corrected image. -/
theorem test_assemble_call : (assemble [⟨none, .real .jmp, [.label "funct"]⟩, ⟨none, .real .halt, []⟩,
    ⟨some "funct", .real .ld, [.reg .x5, .reg .sp]⟩, ⟨none, .real .addi, [.reg .sp, .imm 1]⟩]).map
      (fun is => is.map encode) = some [0x0089, 0x0000, 0x325E, 0x0136] := by decide

/-- 30_encoding.md R74: immediates out of range are rejected. -/
theorem test_ranges : fit 8 (-128) 127 128 = none ∧ fit 8 (-128) 255 255 = some 0xFF ∧ fit 6 0 31 32 = none ∧
    fit 6 0 31 31 = some 31 ∧ fit 8 (-128) 127 (-129) = none ∧ fit 8 (-128) 127 (-1) = some 0xFF := by decide

/-- 30_encoding.md R71, R72: the text of a line. -/
theorem test_read_line : readLine "Loop:  addi sp, -1".toList = some ⟨some "Loop", .real .addi, [.reg .sp, .imm (-1)]⟩ ∧
    readLine "addr, x5, x6, x0".toList = none := by decide

/-! ### Witnesses: concrete states and operands that meet the hypotheses of each statement -/

/-- `LaunchAdmitsAnyRegistersAndMemory`: an image, data above it, at the last word and at word 0, a full image. -/
theorem witness_LaunchAdmitsAnyRegistersAndMemory : [(0x0001 : Word), 0x0000].length ≤ 1024 ∧
    Memory.wf [(0, 0x0007), (1023, 0xFFFF)] ∧ (List.replicate 1024 (0 : Word)).length ≤ 1024 := by
  refine ⟨by decide, by decide, ?_⟩
  rw [List.length_replicate]

/-- Three and four in x5 and x6. -/
def small : State := ((start 0x0010 0x0001).setReg .x5 0x0003).setReg .x6 0x0004

theorem witness_AddrWritesLowBitsOfSum : ((.x7 : Reg) ≠ .pc ∧ gives (exec (.addr .x7 .x5 .x6) small) .x7 0x0007 0x0011) ∧
    ((.x0 : Reg) ≠ .pc ∧ gives (exec (.addr .x0 .x5 .x6) small) .x0 0x0000 0x0011) := by decide
theorem witness_AndrWritesBitwiseAnd : ((.x5 : Reg) ≠ .pc ∧ gives (exec (.andr .x5 .x5 .x6) small) .x5 0x0000 0x0011) ∧
    ((.x0 : Reg) ≠ .pc ∧ gives (exec (.andr .x0 .x5 .x6) small) .x0 0x0000 0x0011) := by decide
theorem witness_NandrWritesBitwiseNand : ((.x6 : Reg) ≠ .pc ∧ gives (exec (.nandr .x6 .x5 .x5) small) .x6 0xFFFC 0x0011) ∧
    ((.x0 : Reg) ≠ .pc ∧ gives (exec (.nandr .x0 .x5 .x6) small) .x0 0x0000 0x0011) := by decide
theorem witness_OrrWritesBitwiseOr : ((.x15 : Reg) ≠ .pc ∧ gives (exec (.orr .x15 .x5 .x6) small) .x15 0x0007 0x0011) ∧
    ((.x0 : Reg) ≠ .pc ∧ gives (exec (.orr .x0 .x5 .x6) small) .x0 0x0000 0x0011) := by decide
theorem witness_SubrWritesLowBitsOfDifference : ((.ra : Reg) ≠ .pc ∧ gives (exec (.subr .ra .x5 .x6) small) .ra 0xFFFF 0x0011) ∧
    ((.x0 : Reg) ≠ .pc ∧ gives (exec (.subr .x0 .x5 .x6) small) .x0 0x0000 0x0011) := by decide
theorem witness_AddiAddsSignedImmediate : ((.x5 : Reg) ≠ .pc ∧ gives (exec (.addi .x5 0x80) small) .x5 0xFF83 0x0011) ∧
    ((.x0 : Reg) ≠ .pc ∧ gives (exec (.addi .x0 0x7F) small) .x0 0x0000 0x0011) := by decide
theorem witness_MovuReplacesUpperByte : ((.x5 : Reg) ≠ .pc ∧ gives (exec (.movu .x5 0xFF) small) .x5 0xFF03 0x0011) ∧
    ((.x0 : Reg) ≠ .pc ∧ gives (exec (.movu .x0 0xFF) small) .x0 0x0000 0x0011) := by decide
theorem witness_MovlReplacesLowerByte : ((.x6 : Reg) ≠ .pc ∧ gives (exec (.movl .x6 0xFF) small) .x6 0x00FF 0x0011) ∧
    ((.x0 : Reg) ≠ .pc ∧ gives (exec (.movl .x0 0xFF) small) .x0 0x0000 0x0011) := by decide

/-- `RetJumpsToLinkRegister`, second clause: a `ret` to itself. -/
theorem witness_RetJumpsToLinkRegister : ((start 0x0010 0x0019).setReg .ra 0x0010).readReg .ra =
    ((start 0x0010 0x0019).setReg .ra 0x0010).pc := by decide

/-- `ReturnComesBackAfterTheCall`: the subroutine is one `ret`. -/
theorem witness_ReturnComesBackAfterTheCall : ∃ s t u imm10, exec (.jmp imm10) s = .next t ∧
    u.readReg .ra = t.readReg .ra ∧ gives (exec .ret u) .ra 0x0011 0x0011 :=
  ⟨small, _, _, 2, rfl, rfl, by decide⟩

/-- The four branch statements, each clause: the boundary values of the comparison. -/
theorem witness_BeqBranchesWhenEqual : small.readReg .x5 = small.readReg .x5 ∧ small.readReg .x5 ≠ small.readReg .x6 ∧
    gives (exec (.beq .x5 .x5 0x8) small) .x5 0x0003 0x0008 ∧ gives (exec (.beq .x5 .x6 0x8) small) .x5 0x0003 0x0011 := by decide
theorem witness_BneBranchesWhenDifferent : small.readReg .x5 ≠ small.readReg .x6 ∧ small.readReg .x0 = small.readReg .x0 ∧
    gives (exec (.bne .x5 .x6 0x7) small) .x5 0x0003 0x0017 ∧ gives (exec (.bne .x0 .x0 0x7) small) .x5 0x0003 0x0011 := by decide
theorem witness_BgtBranchesWhenSignedGreater : (small.readReg .x6).toInt > (small.readReg .x5).toInt ∧
    (small.readReg .x5).toInt ≤ (small.readReg .x5).toInt ∧ gives (exec (.bgt .x6 .x5 0x7) small) .x5 0x0003 0x0017 ∧
    gives (exec (.bgt .x5 .x5 0x7) small) .x5 0x0003 0x0011 := by decide
theorem witness_BltBranchesWhenSignedLess : (small.readReg .x5).toInt < (small.readReg .x6).toInt ∧
    (small.readReg .x5).toInt ≤ (small.readReg .x5).toInt ∧ gives (exec (.blt .x5 .x6 0x7) small) .x5 0x0003 0x0017 ∧
    gives (exec (.blt .x5 .x5 0x7) small) .x5 0x0003 0x0011 := by decide

/-- The last word of memory in x5, the first address beyond in x6; word 1023 is given, word 0 is not. -/
def edge : State := put (((start 0x0010 0x0001).setReg .x5 0x03FF).setReg .x6 0x0400) 0x03FF 0x8001

theorem witness_LdLoadsTheAddressedWord : (.x7 : Reg) ≠ .pc ∧
    ((edge.readReg .x5).toNat < 1024 ∧ edge.mem.read ((edge.readReg .x5).toNat % 1024) = 0x8001) ∧
    (1024 ≤ (edge.readReg .x6).toNat ∧ edge.cfg.addrMode = .fault) ∧
    (under wrapping edge).cfg.addrMode = .wrap := by decide
theorem witness_LdLoadsTheAddressedWord_outcomes : gives (exec (.ld .x7 .x5) edge) .x7 0x8001 0x0011 ∧
    faults (exec (.ld .x7 .x6) edge) (.addressOutOfRange .load 0x0400) ∧
    gives (exec (.ld .x7 .x6) (under wrapping (put edge 0 0x1234))) .x7 0x1234 0x0011 := by decide
theorem witness_StrStoresTheRegister : (storeAddress .x5 edge).toNat < 1024 ∧ 1024 ≤ (storeAddress .x6 edge).toNat ∧
    edge.cfg.addrMode = .fault ∧ stores (exec (.str .x5 .x6) edge) 0x03FF 0x0400 0x0011 ∧
    faults (exec (.str .x6 .x5) edge) (.addressOutOfRange .store 0x0400) ∧
    stores (exec (.str .x6 .x5) (under wrapping edge)) 0 0x03FF 0x0011 := by decide

/-- `LoadReturnsTheLatestStore`: word 1023 through x5, then word 0 through x0, then word 1023 back into x7. -/
theorem witness_LoadReturnsTheLatestStore : ∃ t u, exec (.str .x5 .x6) edge = .next t ∧ exec (.str .x0 .x5) t = .next u ∧
    wordIndex t.cfg.addrMode (storeAddress .x0 t) ≠ wordIndex edge.cfg.addrMode (storeAddress .x5 edge) ∧
    wordIndex u.cfg.addrMode (u.readReg .x5) = wordIndex edge.cfg.addrMode (storeAddress .x5 edge) ∧
    gives (exec (.ld .x7 .x5) u) .x7 0x0400 0x0013 :=
  ⟨_, _, rfl, rfl, by decide, by decide, by decide⟩

/-- `StoreIsSeenByTheNextFetch`: a store at 0x0010 of the word of `nandr x7, x0, x0` to 0x0011. -/
theorem witness_StoreIsSeenByTheNextFetch :
    let s := ((start 0x0010 0x516E).setReg .x6 0x0011).setReg .x5 0x0073
    ∃ t, s.halted = false ∧ exec (.str .x6 .x5) s = .next t ∧
      wordIndex s.cfg.addrMode (storeAddress .x6 s) = wordIndex t.cfg.addrMode t.pc ∧
      decodesTo s.cfg.strictUnused (s.readReg .x5) (.nandr .x7 .x0 .x0) ∧ writesPc (.nandr .x7 .x0 .x0) = false ∧
      gives (step t) .x7 0xFFFF 0x0012 :=
  ⟨_, by decide, rfl, by decide, by decide, by decide, by decide⟩

/-- `MemoriesThatReadAlikeAreEqual`: the same two words stored in either order. -/
theorem witness_MemoriesThatReadAlikeAreEqual : Memory.wf (Memory.write (Memory.write [] 0 1) 1023 2) ∧
    Memory.write (Memory.write [] 0 1) 1023 2 = Memory.write (Memory.write [] 1023 2) 0 1 := by decide

/-- `WrapModeRaisesNoAddressFault`: a machine under wrap with a `pc` of 1024. -/
theorem witness_WrapModeRaisesNoAddressFault : (under wrapping { State.reset with pc := 0x0400 }).cfg.addrMode = .wrap := by
  decide

/-- The shift statements: the amounts 31 and 32. -/
theorem witness_ShlShiftsLeft : (31 : BitVec 6).toNat < 32 ∧ 32 ≤ (32 : BitVec 6).toNat ∧
    gives (exec (.shl .x5 31) small) .x5 0x0000 0x0011 ∧
    faults (exec (.shl .x5 32) small) (.illegalInstruction 0x0010 0x580F) := by decide
theorem witness_SalShiftsLeftUnderItsMode : (31 : BitVec 6).toNat < 32 ∧ 32 ≤ (32 : BitVec 6).toNat ∧
    small.cfg.salMode = .keepSign ∧ (under plainSal small).cfg.salMode = .asShl ∧
    gives (exec (.sal .x5 14) small) .x5 0x4000 0x0011 ∧ gives (exec (.sal .x5 14) (under plainSal small)) .x5 0xC000 0x0011 ∧
    faults (exec (.sal .x5 32) small) (.illegalInstruction 0x0010 0x582F) := by decide

/-- `SalIsExactWhenTheProductFits`: -1 times 2^15 is the least number; an amount of 0. -/
theorem witness_SalIsExactWhenTheProductFits :
    let s := small.setReg .x5 0xFFFF
    (.x5 : Reg) ≠ .x0 ∧ -32768 ≤ (s.readReg .x5).toInt * 2 ^ (15 : BitVec 6).toNat ∧
      (s.readReg .x5).toInt * 2 ^ (15 : BitVec 6).toNat ≤ 32767 ∧ gives (exec (.sal .x5 15) s) .x5 0x8000 0x0011 ∧
      gives (exec (.sal .x5 15) (under plainSal s)) .x5 0x8000 0x0011 ∧ gives (exec (.sal .x5 0) s) .x5 0xFFFF 0x0011 := by decide
theorem witness_ShrDividesUnsigned : (31 : BitVec 6).toNat < 32 ∧ 32 ≤ (32 : BitVec 6).toNat ∧
    gives (exec (.shr .x6 2) small) .x6 0x0001 0x0011 ∧
    faults (exec (.shr .x6 32) small) (.illegalInstruction 0x0010 0x681F) := by decide
theorem witness_SarDividesSignedRoundingDown : (31 : BitVec 6).toNat < 32 ∧ 32 ≤ (32 : BitVec 6).toNat ∧
    gives (exec (.sar .x6 31) (small.setReg .x6 0x8000)) .x6 0xFFFF 0x0011 ∧
    faults (exec (.sar .x6 32) small) (.illegalInstruction 0x0010 0x683F) := by decide

/-- `HaltedMachineNeverChanges`: a machine that has executed `halt`. -/
theorem witness_HaltedMachineNeverChanges : ∃ t, exec .halt small = .next t ∧ runSteps 3 t = .next t := ⟨_, rfl, rfl⟩

/-- `EveryRunEndsInExactlyOneWay` has no hypotheses; each of the three ends happens: at a `halt`, at an illegal
word, and in a `beq` that branches to itself (its first three steps). -/
theorem witness_EveryRunEndsInExactlyOneWay : HaltsIn (start 0 0x0000) (start 0 0x0000).halt ∧
    FaultsWith (start 0 0x506E) (.illegalInstruction 0 0x506E) ∧ runSteps 3 (start 0 0x000A) = .next (start 0 0x000A) :=
  ⟨⟨1, rfl, rfl⟩, ⟨1, rfl⟩, rfl⟩

theorem witness_StepRunsTheDecodedInstruction : (start 0x03FF 0x0073).halted = false ∧
    wordIndex (start 0x03FF 0x0073).cfg.addrMode (start 0x03FF 0x0073).pc = some 1023 ∧
    decodesTo false ((start 0x03FF 0x0073).mem.read 1023) (.nandr .x7 .x0 .x0) ∧
    writesPc (.nandr .x7 .x0 .x0) = false := by decide

/-- `StepReportsFaultsInOrder`, each clause: a `pc` of 1024, an illegal word, a write of x4. -/
theorem witness_StepReportsFaultsInOrder : (1024 ≤ (start 0x0400 0).pc.toNat ∧ (start 0x0400 0).cfg.addrMode = .fault) ∧
    ((start 0x03FF 0x580F).pc.toNat < 1024 ∧ (start 0x03FF 0x580F).mem.read 1023 = 0x580F ∧
      illegal false 0x580F .negativeAmount) ∧
    ((start 0x0010 0x404F).mem.read 16 = 0x404F ∧ decodesTo false 0x404F (.shl .pc 1) ∧
      destField (.shl .pc 1) = some .pc) := by decide

/-- `FormsThatWriteX4Fault`: a form of each clause. -/
theorem witness_FormsThatWriteX4Fault : (31 : BitVec 6).toNat < 32 ∧
    faults (exec (.ld .pc .x6) edge) (.writeToPC 0x0010 0x624E) ∧ faults (exec (.sar .pc 31) edge) (.writeToPC 0x0010 0x47FF) ∧
    stores (exec (.str .pc .x5) edge) 0x0010 0x03FF 0x0011 := by decide

/-- `StepFaultsOnlyForTheNamedReasons`: a step that faults for each reason is among `test_fault_…`; here the
greatest address. -/
theorem witness_StepFaultsOnlyForTheNamedReasons :
    faults (step ((start 0x0010 0x625E).setReg .x6 0xFFFF)) (.addressOutOfRange .load 0xFFFF) := by decide

/-- `StepWritesOneRegisterOrOneWord`, each clause: a step of a halted machine, one that writes a register, and one that
stores at an address that wraps. -/
theorem witness_StepWritesOneRegisterOrOneWord :
    let h := (start 0x0010 0x0000).halt
    let r := start 0x0010 0x0073
    let s := under wrapping ((start 0x0010 0x516E).setReg .x6 0x0400)
    (h.halted = true ∧ ∃ t, step h = .next t) ∧ (r.halted = false ∧ ∃ t, step r = .next t) ∧
      (s.halted = false ∧ wordIndex s.cfg.addrMode (storeAddress .x6 s) = some 0 ∧ ∃ t, step s = .next t ∧
        t.mem.read 0 = s.readReg .x5) := by
  refine ⟨⟨rfl, _, rfl⟩, ⟨rfl, _, rfl⟩, rfl, by decide, _, rfl, by decide⟩

/-- `StepKeepsTheInvariant`: a step that stores, from a state in canonical form. -/
theorem witness_StepKeepsTheInvariant : (put (start 0x0010 0x710E) 5 7).Inv ∧ ∃ t, step (put (start 0x0010 0x710E) 5 7) = .next t ∧
    t.mem = [(0, 0xA5A7), (5, 7), (16, 0x710E)] := ⟨by unfold State.Inv; decide, _, rfl, by decide⟩

/-- `InstructionsReadAndWriteWhatTheTableLists`: `ld x7, x5` in two states that differ in x6, which it does not read. -/
theorem witness_InstructionsReadAndWriteWhatTheTableLists :
    let u := edge.setReg .x6 0x1111
    u.pc = edge.pc ∧ u.cfg = edge.cfg ∧ (∀ r ∈ tableReads (.ld .x7 .x5), u.readReg r = edge.readReg r) ∧
      u.mem = edge.mem ∧ u ≠ edge ∧ gives (exec (.ld .x7 .x5) u) .x7 0x8001 0x0011 := by decide

/-- `RegisterZeroReadsAsZero`: a run that ends in a next state and has written x0. -/
theorem witness_RegisterZeroReadsAsZero : ∃ t, runSteps 1 (start 0 0x0506) = .next t ∧ t.readReg .x0 = 0x0000 ∧ t.pc = 1 :=
  ⟨_, rfl, rfl, rfl⟩

/-- `ShiftFormatPlacesItsFields` and `DecodeOfEncodeIsTheInstruction`: the greatest amount. -/
theorem witness_ShiftFormatPlacesItsFields : (31 : BitVec 6).toNat < 32 ∧ decodesTo true 0x57FF (.sar .x5 31) := by decide
theorem witness_DecodeOfEncodeIsTheInstruction : (Instr.sar .x15 31).wellFormed ∧
    decodesTo true (encode (.sar .x15 31)) (.sar .x15 31) := by decide

/-- `UnusedBitsMatterOnlyWhenStrict` and `EncodeOfDecodeIsTheWordWithUnusedBitsClear`: a word with unused bits set. -/
theorem witness_UnusedBitsMatterOnlyWhenStrict : decodesTo false 0x3E5E (.ld .x5 .sp) ∧
    (0x3E5E : Word) &&& (Instr.ld .x5 .sp).unusedMask ≠ 0 ∧ decodesTo true 0x325E (.ld .x5 .sp) := by decide
theorem witness_EncodeOfDecodeIsTheWordWithUnusedBitsClear : decodesTo false 0xABC0 .halt ∧ encode .halt = 0x0000 := by decide

/-- `PushLowersSpAndStores`: `sp` at 1024 pushes to the last word; `sp` at 0 faults with `sp` lowered (R128). -/
theorem witness_PushLowersSpAndStores :
    let s := small.setReg .sp 0x0400
    let z := small.setReg .sp 0x0000
    (s.readReg .sp - 1).toNat < 1024 ∧ stores (execPseudo (.push .x5) s) 0x03FF 0x0003 0x0012 ∧
      stores (execPseudo (.push .sp) s) 0x03FF 0x03FF 0x0012 ∧ stores (execPseudo (.push .pc) s) 0x03FF 0x0011 0x0012 ∧
      1024 ≤ (z.readReg .sp - 1).toNat ∧ z.cfg.addrMode = .fault ∧
      faults (execPseudo (.push .x5) z) (.addressOutOfRange .store 0xFFFF) := by decide

/-- `PopLoadsAndRaisesSp`: the last word; `pop sp`; `sp` at 1024 (R129). -/
theorem witness_PopLoadsAndRaisesSp :
    let s := edge.setReg .sp 0x03FF
    let z := edge.setReg .sp 0x0400
    (.x7 : Reg) ≠ .pc ∧ (s.readReg .sp).toNat < 1024 ∧ s.mem.read ((s.readReg .sp).toNat % 1024) = 0x8001 ∧
      gives (execPseudo (.pop .x7) s) .x7 0x8001 0x0012 ∧ gives (execPseudo (.pop .sp) s) .sp 0x8002 0x0012 ∧
      1024 ≤ (z.readReg .sp).toNat ∧ z.cfg.addrMode = .fault ∧
      faults (execPseudo (.pop .x7) z) (.addressOutOfRange .load 0x0400) ∧
      faults (execPseudo (.pop .pc) s) (.writeToPC 0x0010 0x324E) := by decide

/-- `PushThenPopRestores`: a push that runs. -/
theorem witness_PushThenPopRestores : ∃ t, execPseudo (.push .x5) (small.setReg .sp 0x0400) = .next t ∧
    gives (execPseudo (.pop .x5) t) .x5 0x0003 0x0014 := ⟨_, rfl, by decide⟩
theorem witness_MovCopiesARegister : (.x7 : Reg) ≠ .pc ∧ gives (execPseudo (.mov .x7 .x6) small) .x7 0x0004 0x0011 ∧
    faults (execPseudo (.mov .pc .x6) small) (.writeToPC 0x0010 0x6041) := by decide

/-- `AssembledOffsetsReachTheirLabels`: the ends of both ranges and the distances just beyond them. -/
theorem witness_AssembledOffsetsReachTheirLabels : labelAddress "L" [("K", 1), ("L", 1000)] = some 1000 ∧
    branchOffset [("L", 1000)] 1008 "L" = some 0x8 ∧ branchOffset [("L", 1000)] 993 "L" = some 0x7 ∧
    branchOffset [("L", 1000)] 1009 "L" = none ∧ branchOffset [("L", 1000)] 992 "L" = none := by decide
theorem witness_AssembledOffsetsReachTheirLabels_jmp : jumpOffset [("L", 512)] 1024 "L" = some 0x200 ∧
    jumpOffset [("L", 512)] 1 "L" = some 0x1FF ∧ jumpOffset [("L", 513)] 1 "L" = none ∧
    jumpOffset [("L", 511)] 1024 "L" = none := by decide

end Sys2Proof.Tests
end

section
/-! PROOFS. What the state reads as (10_state.md): the register x0. The equations of `writeBack`, `addr`, `beq` and
`bne` stand first, so that no proof below unfolds an instruction. -/

namespace Sys2Proof.Machine

/-- A destination other than x4 is written and `pc` advances: the converse of `writeBack_next`. -/
theorem writeBack_of_ne_pc (i : Instr) {rd : Reg} (hrd : rd ≠ .pc) (v : Word) (s : State) :
    writeBack i rd v s = .next (s.setReg rd v).advance := if_neg hrd

/-- The write-back of an ordinary register is read back from the next state. -/
theorem readReg_setReg_advance_same (s : State) {rd : Reg} (hpc : rd ≠ .pc) (hx0 : rd ≠ .x0) (v : Word) :
    (s.setReg rd v).advance.readReg rd = v := by
  rw [State.readReg_advance _ hpc, State.readReg_setReg_same s v hpc, if_neg hx0]

theorem exec_addr_eq_writeBack (rd rs1 rs2 : Reg) (s : State) :
    exec (.addr rd rs1 rs2) s = writeBack (.addr rd rs1 rs2) rd (s.readReg rs1 + s.readReg rs2) s := rfl

/-- `addr` into an ordinary register leaves the sum of its operands there (40_register_mode.md R81). -/
theorem exec_addr_readReg (s : State) {rd : Reg} (hpc : rd ≠ .pc) (hx0 : rd ≠ .x0) (rs1 rs2 : Reg) :
    ∃ t, exec (.addr rd rs1 rs2) s = .next t ∧ t.readReg rd = s.readReg rs1 + s.readReg rs2 :=
  ⟨_, (exec_addr_eq_writeBack rd rs1 rs2 s).trans (writeBack_of_ne_pc _ hpc _ s),
    readReg_setReg_advance_same s hpc hx0 _⟩

theorem exec_beq_eq_setPc (rs1 rs2 : Reg) (imm4 : BitVec 4) (s : State) :
    exec (.beq rs1 rs2 imm4) s =
      .next (s.setPc (if s.readReg rs1 = s.readReg rs2 then s.target imm4 else s.nextPc)) := by
  simp [exec, execBeq, branchMode, condEqual]

theorem exec_bne_eq_setPc (rs1 rs2 : Reg) (imm4 : BitVec 4) (s : State) :
    exec (.bne rs1 rs2 imm4) s =
      .next (s.setPc (if s.readReg rs1 ≠ s.readReg rs2 then s.target imm4 else s.nextPc)) := by
  simp [exec, execBne, branchMode, condNotEqual]

/-- A register compared with itself is equal: `beq r, r` always branches. -/
theorem exec_beq_self (r : Reg) (imm4 : BitVec 4) (s : State) :
    exec (.beq r r imm4) s = .next (s.setPc (s.target imm4)) := by
  rw [exec_beq_eq_setPc, if_pos rfl]

/-- A register compared with itself is not different: `bne r, r` never branches. -/
theorem exec_bne_self (r : Reg) (imm4 : BitVec 4) (s : State) :
    exec (.bne r r imm4) s = .next (s.setPc s.nextPc) := by
  rw [exec_bne_eq_setPc, if_neg (not_not_intro rfl)]

/-- `addr` with x0 as the second operand copies (10_state.md R13). -/
theorem exec_addr_x0_copies (s : State) {rd : Reg} (hpc : rd ≠ .pc) (hx0 : rd ≠ .x0) (rs1 : Reg) :
    ∃ t, exec (.addr rd rs1 .x0) s = .next t ∧ t.readReg rd = s.readReg rs1 := by
  obtain ⟨t, ht, hsum⟩ := exec_addr_readReg s hpc hx0 rs1 .x0
  exact ⟨t, ht, by simpa using hsum⟩

/-- `beq` against x0 is the always-taken branch on zero and the never-taken branch otherwise (10_state.md R13). -/
theorem exec_beq_x0 (rs1 : Reg) (imm4 : BitVec 4) (s : State) :
    exec (.beq rs1 .x0 imm4) s =
      if s.readReg rs1 = 0 then exec (.beq .x0 .x0 imm4) s else exec (.bne .x0 .x0 imm4) s := by
  rw [exec_beq_eq_setPc, State.readReg_x0, exec_beq_self, exec_bne_self]
  split <;> rfl

/-- Settles O41: x0 is no stored register, so it reads as zero in whatever state a write or a run leads to; copying and
clearing are the sum with that zero, and the branch is the comparison with it. -/
theorem registerZeroReadsAsZero : Obligations.RegisterZeroReadsAsZero :=
  ⟨State.readReg_x0, fun s v => State.readReg_x0 (s.setReg .x0 v), fun _ _ t _ => State.readReg_x0 t, fun s =>
    ⟨exec_addr_x0_copies s (by decide) (by decide) .x6, exec_addr_x0_copies s (by decide) (by decide) .x0,
      fun imm4 => exec_beq_x0 .x7 imm4 s⟩⟩

end Sys2Proof.Machine
end

section
/-! PROOFS. The R, I and J formats (30_encoding.md R54 to R56). First what the decoder answers for each of their opcodes
in any word, then, once per format, that it reads back the fields the encoder placed. -/

namespace Sys2Proof

/-- `STRICT_UNUSED` makes no difference to a word whose unused bits are 0 (R69). -/
theorem decode_of_decodeFields {w : Word} {i : Instr} (hfields : decodeFields w = .ok i)
    (hclear : w &&& i.unusedMask = 0) (strict : Bool) : decode strict w = .ok i := by
  simp [decode, hfields, hclear]

section
variable {w : Word}

theorem decodeFields_addr (h : opcodeField w = 0b0001) :
    decodeFields w = .ok (.addr (rdField w) (rs1Field w) (rs2Field w)) := by rw [decodeFields, h]; rfl
theorem decodeFields_andr (h : opcodeField w = 0b0010) :
    decodeFields w = .ok (.andr (rdField w) (rs1Field w) (rs2Field w)) := by rw [decodeFields, h]; rfl
theorem decodeFields_nandr (h : opcodeField w = 0b0011) :
    decodeFields w = .ok (.nandr (rdField w) (rs1Field w) (rs2Field w)) := by rw [decodeFields, h]; rfl
theorem decodeFields_orr (h : opcodeField w = 0b0100) :
    decodeFields w = .ok (.orr (rdField w) (rs1Field w) (rs2Field w)) := by rw [decodeFields, h]; rfl
theorem decodeFields_subr (h : opcodeField w = 0b0101) :
    decodeFields w = .ok (.subr (rdField w) (rs1Field w) (rs2Field w)) := by rw [decodeFields, h]; rfl
theorem decodeFields_addi (h : opcodeField w = 0b0110) :
    decodeFields w = .ok (.addi (rdField w) (imm8Field w)) := by rw [decodeFields, h]; rfl
theorem decodeFields_movu (h : opcodeField w = 0b0111) :
    decodeFields w = .ok (.movu (rdField w) (imm8Field w)) := by rw [decodeFields, h]; rfl
theorem decodeFields_movl (h : opcodeField w = 0b1000) :
    decodeFields w = .ok (.movl (rdField w) (imm8Field w)) := by rw [decodeFields, h]; rfl
theorem decodeFields_jump (h : opcodeField w = 0b1001) : decodeFields w = .ok (decodeJump w) := by
  rw [decodeFields, h]; rfl

end

/-- R format: the word of an opcode that the decoder reads as `instr` decodes to `instr` of the registers encoded. -/
theorem decode_encodeR {op : BitVec 4} {instr : Reg → Reg → Reg → Instr}
    (hrow : ∀ {w}, opcodeField w = op → decodeFields w = .ok (instr (rdField w) (rs1Field w) (rs2Field w)))
    (strict : Bool) (rd rs1 rs2 : Reg) (hused : (instr rd rs1 rs2).unusedMask = 0) :
    decode strict (encodeR op rd rs1 rs2) = .ok (instr rd rs1 rs2) := by
  refine decode_of_decodeFields ?_ (by simp [hused]) strict
  rw [hrow (opcodeField_encodeR op rd rs1 rs2), rdField_encodeR, rs1Field_encodeR, rs2Field_encodeR]

/-- I format: the word of an opcode that the decoder reads as `instr` decodes to `instr` of the operands encoded. -/
theorem decode_encodeI {op : BitVec 4} {instr : Reg → BitVec 8 → Instr}
    (hrow : ∀ {w}, opcodeField w = op → decodeFields w = .ok (instr (rdField w) (imm8Field w)))
    (strict : Bool) (rd : Reg) (imm8 : BitVec 8) (hused : (instr rd imm8).unusedMask = 0) :
    decode strict (encodeI op rd imm8) = .ok (instr rd imm8) := by
  refine decode_of_decodeFields ?_ (by simp [hused]) strict
  rw [hrow (opcodeField_encodeI op rd imm8), rdField_encodeI, imm8Field_encodeI]

/-- J format: R selects between `ret` and `jmp`. -/
theorem decodeFields_encodeJ (imm10 : BitVec 10) (r : BitVec 1) :
    decodeFields (encodeJ imm10 r) = .ok (if r.getLsbD 0 then .ret else .jmp imm10) := by
  rw [decodeFields_jump (opcodeField_encodeJ imm10 r), decodeJump_encodeJ]

/-- J format with R = 0; the unused bit 5 is written as 0. -/
theorem decode_encodeJ_jmp (strict : Bool) (imm10 : BitVec 10) : decode strict (encodeJ imm10 0) = .ok (.jmp imm10) :=
  decode_of_decodeFields (decodeFields_encodeJ imm10 0) (Laws.UnusedClear.jmp imm10) strict

/-- J format with R = 1; the unused immediate is written as 0. -/
theorem decode_encodeJ_ret (strict : Bool) : decode strict (encodeJ 0 1) = .ok .ret :=
  decode_of_decodeFields (decodeFields_encodeJ 0 1) Laws.UnusedClear.ret strict

/-- Settles O42: each word written out is one of the R format, under the opcode of its row. -/
theorem registerFormatPlacesItsFields : Obligations.RegisterFormatPlacesItsFields :=
  ⟨fun strict rd rs1 rs2 =>
    ⟨decode_encodeR decodeFields_addr strict rd rs1 rs2 rfl, decode_encodeR decodeFields_andr strict rd rs1 rs2 rfl,
      decode_encodeR decodeFields_nandr strict rd rs1 rs2 rfl, decode_encodeR decodeFields_orr strict rd rs1 rs2 rfl,
      decode_encodeR decodeFields_subr strict rd rs1 rs2 rfl⟩,
    rfl⟩

/-- Settles O43: each word written out is one of the I format, under the opcode of its row; the table of R28 lists RD
in both columns for each of the three. -/
theorem immediateFormatPlacesItsFields : Obligations.ImmediateFormatPlacesItsFields :=
  ⟨fun strict rd imm8 =>
    ⟨decode_encodeI decodeFields_addi strict rd imm8 rfl, decode_encodeI decodeFields_movu strict rd imm8 rfl,
      decode_encodeI decodeFields_movl strict rd imm8 rfl, by simp [Machine.tableReads, Machine.tableWrites]⟩,
    rfl, rfl⟩

/-- Settles O44: the words written out are those of the J format with R = 0 and R = 1. -/
theorem jumpFormatPlacesItsFields : Obligations.JumpFormatPlacesItsFields :=
  ⟨decode_encodeJ_jmp, decode_encodeJ_ret, rfl, rfl⟩

end Sys2Proof
end

section
/-! PROOFS. The memory and the launch states: the canonical form is unique, every launch has it, and every step keeps
it (log 5, 70_reset_and_hazards.md R160 to R166). -/

namespace Sys2Proof.Machine

namespace Memory

theorem read_of_not_listed {m : Memory} {a : Nat} (h : ∀ c ∈ m, c.1 ≠ a) : m.read a = unlisted a := by
  induction m with
  | nil => rfl
  | cons c m ih =>
    obtain ⟨b, v⟩ := c
    have hab : a ≠ b := fun hab => h (b, v) List.mem_cons_self hab.symm
    rw [read, if_neg hab, ih fun c hc => h c (List.mem_cons_of_mem _ hc)]

@[simp] theorem read_cons_same (a : Nat) (v : Word) (m : Memory) : read ((a, v) :: m) a = v := if_pos rfl

theorem read_cons_other {a b : Nat} (h : b ≠ a) (v : Word) (m : Memory) : read ((a, v) :: m) b = m.read b := if_neg h

/-- The tail of a canonical memory is canonical, and lists only addresses above the head's. -/
theorem wf_cons {a : Nat} {v : Word} {m : Memory} (h : wf ((a, v) :: m)) :
    unlisted a ≠ v ∧ m.wf ∧ ∀ c ∈ m, a < c.1 := by
  obtain ⟨hrise, hcells⟩ := h
  rw [List.pairwise_cons] at hrise
  exact ⟨(hcells _ List.mem_cons_self).2, ⟨hrise.2, fun c hc => hcells c (List.mem_cons_of_mem _ hc)⟩, hrise.1⟩

/-- In a canonical memory an address at or below every listed one reads as unlisted. -/
theorem read_below {m : Memory} {a b : Nat} (hm : ∀ c ∈ m, b < c.1) (hab : a ≤ b) : m.read a = unlisted a :=
  read_of_not_listed fun c hc => by have := hm c hc; omega

/-- The head's word tells a canonical memory from one that lists only higher addresses. -/
theorem not_read_alike_of_lt {a : Nat} {v : Word} {m n : Memory} (hm : wf ((a, v) :: m)) (hn : ∀ c ∈ n, a < c.1) :
    ¬∀ b, read ((a, v) :: m) b = n.read b := fun h => by
  have hv := h a
  rw [read_cons_same, read_below hn le_rfl] at hv
  exact (wf_cons hm).1 hv.symm

/-- The canonical form is unique: the heads agree, because neither address can be below the other, and then the tails
read alike. -/
theorem eq_of_read_eq {m n : Memory} (hm : m.wf) (hn : n.wf) (h : ∀ a, m.read a = n.read a) : m = n := by
  induction m generalizing n with
  | nil =>
    cases n with
    | nil => rfl
    | cons d n => exact absurd (fun a => (h a).symm) (not_read_alike_of_lt hn (by simp))
  | cons c m ih =>
    obtain ⟨a, v⟩ := c
    obtain ⟨-, hmwf, hmabove⟩ := wf_cons hm
    cases n with
    | nil => exact absurd h (not_read_alike_of_lt hm (by simp))
    | cons d n =>
      obtain ⟨b, u⟩ := d
      obtain ⟨-, hnwf, hnabove⟩ := wf_cons hn
      rcases Nat.lt_trichotomy a b with hab | rfl | hab
      · refine absurd h (not_read_alike_of_lt hm fun c hc => ?_)
        rcases List.mem_cons.1 hc with rfl | hc
        · exact hab
        · exact hab.trans (hnabove c hc)
      · have hvu : v = u := by simpa using h a
        have htails : ∀ b, read m b = read n b := fun b => by
          by_cases hb : b = a
          · rw [hb, read_below hmabove le_rfl, read_below hnabove le_rfl]
          · rw [← read_cons_other hb v m, ← read_cons_other hb u n, h]
        rw [hvu, ih hmwf hnwf htails]
      · refine absurd (fun a => (h a).symm) (not_read_alike_of_lt hn fun c hc => ?_)
        rcases List.mem_cons.1 hc with rfl | hc
        · exact hab
        · exact hab.trans (hmabove c hc)

/-- Every contents of the 1024 words is the contents of some canonical memory. -/
theorem exists_of_contents (contents : Nat → Word) :
    ∃ m : Memory, m.wf ∧ ∀ a, a < memWords → m.read a = contents a := by
  refine ⟨loadImage 0 ((List.range memWords).map contents) [], wf_loadImage wf_nil (by simp), fun a ha => ?_⟩
  rw [read_loadImage, if_pos (by simpa using ha)]
  simp [ha]

end Memory

/-- Only `str` writes memory, and its word lies inside the memory. -/
theorem exec_keeps_inv {i : Instr} {s t : State} (hs : s.Inv) (h : exec i s = .next t) : t.Inv := by
  rcases exec_next h with ⟨_, _, -, -, rfl⟩ | ⟨_, -, rfl⟩ | ⟨_, _, n, -, hn, rfl⟩ | ⟨-, rfl⟩ | ⟨_, -, rfl⟩
  case inr.inr.inl => exact Memory.wf_write hs (wordIndex_lt hn) _
  all_goals exact hs

/-- Settles O39: a halted machine stays as it is, and every instruction keeps the invariant. -/
theorem stepKeepsTheInvariant : Obligations.StepKeepsTheInvariant := by
  intro s t hs h
  rcases step_next h with ⟨-, rfl⟩ | ⟨-, i, -, hexec⟩
  · exact hs
  · exact exec_keeps_inv hs hexec

/-- Settles O23, by induction along the two lists. -/
theorem memoriesThatReadAlikeAreEqual : Obligations.MemoriesThatReadAlikeAreEqual :=
  fun _ _ => Memory.eq_of_read_eq

theorem launch_eq_some (cfg : Config) (regs : Regs) {data : Memory} {image : List Word}
    (hlen : image.length ≤ memWords) (hdata : data.wf) :
    State.launch cfg regs data image = some ⟨regs, launchPc, loadImage 0 image data, false, cfg⟩ :=
  if_pos ⟨hlen, hdata⟩

/-- Settles O3: what loading an image does (`read_loadImage`) gives the words, the data's own form the invariant. -/
theorem launchAdmitsAnyRegistersAndMemory : Obligations.LaunchAdmitsAnyRegistersAndMemory := by
  refine ⟨fun cfg regs data image hlen hdata =>
    ⟨_, launch_eq_some cfg regs hlen hdata, rfl, rfl, rfl, rfl, fun a ha => ?_, fun a ha => ?_, ?_⟩,
    Memory.exists_of_contents⟩
  · simp [read_loadImage, ha]
  · rw [read_loadImage, if_neg (by omega)]
  · exact wf_loadImage hdata (by simpa using hlen)

/-- Settles O1: each clause is a field of `State.reset`; an empty memory lists no word. -/
theorem resetIsTheChosenLaunchState : Obligations.ResetIsTheChosenLaunchState := by
  refine ⟨rfl, rfl, rfl, rfl, fun _ => rfl, fun r hx0 hpc => ?_⟩
  cases r with
  | x0 => exact absurd rfl hx0
  | pc => exact absurd rfl hpc
  | _ => rfl

/-- Settles O2: an empty memory is in canonical form. -/
theorem resetSatisfiesInvariant : Obligations.ResetSatisfiesInvariant := Memory.wf_nil

end Sys2Proof.Machine
end

section
/-! PROOFS. The decoder and the encoder (30_encoding.md sections 2, 4 and 5): what the decoder answers for the opcodes
of the B, LS and S formats, the round trip both ways, and from it the opcode table, the unused bits and the illegal
words. -/

namespace Sys2Proof

/-- With the unused bits ignored the decoder is the reading of the fields. -/
theorem decode_false (w : Word) : decode false w = decodeFields w := by
  unfold decode
  cases decodeFields w <;> rfl

section
variable {w : Word}

theorem decodeFields_halt (h : opcodeField w = 0b0000) : decodeFields w = .ok .halt := by rw [decodeFields, h]; rfl
theorem decodeFields_beq (h : opcodeField w = 0b1010) :
    decodeFields w = .ok (.beq (rs1Field w) (rs2Field w) (imm4Field w)) := by rw [decodeFields, h]; rfl
theorem decodeFields_bne (h : opcodeField w = 0b1011) :
    decodeFields w = .ok (.bne (rs1Field w) (rs2Field w) (imm4Field w)) := by rw [decodeFields, h]; rfl
theorem decodeFields_bgt (h : opcodeField w = 0b1100) :
    decodeFields w = .ok (.bgt (rs1Field w) (rs2Field w) (imm4Field w)) := by rw [decodeFields, h]; rfl
theorem decodeFields_blt (h : opcodeField w = 0b1101) :
    decodeFields w = .ok (.blt (rs1Field w) (rs2Field w) (imm4Field w)) := by rw [decodeFields, h]; rfl
theorem decodeFields_jmp (h : opcodeField w = 0b1001) (hr : w.getLsbD 4 = false) :
    decodeFields w = .ok (.jmp (imm10Field w)) :=
  (decodeFields_jump h).trans (congrArg Except.ok (if_neg (Bool.eq_false_iff.1 hr)))
theorem decodeFields_ret (h : opcodeField w = 0b1001) (hr : w.getLsbD 4 = true) : decodeFields w = .ok .ret :=
  (decodeFields_jump h).trans (congrArg Except.ok (if_pos hr))
theorem decodeFields_loadStore (h : opcodeField w = 0b1110) : decodeFields w = decodeLoadStore w := by
  rw [decodeFields, h]; rfl
theorem decodeFields_ld (h : opcodeField w = 0b1110) (h9 : w.getLsbD 9 = true) (h8 : w.getLsbD 8 = false) :
    decodeFields w = .ok (.ld (rdField w) (rs1Field w)) := by
  rw [decodeFields_loadStore h, decodeLoadStore, h9, h8]
theorem decodeFields_str (h : opcodeField w = 0b1110) (h9 : w.getLsbD 9 = false) (h8 : w.getLsbD 8 = true) :
    decodeFields w = .ok (.str (rdField w) (rs1Field w)) := by
  rw [decodeFields_loadStore h, decodeLoadStore, h9, h8]
theorem decodeFields_shift (h : opcodeField w = 0b1111) : decodeFields w = decodeShift w := by
  rw [decodeFields, h]; rfl
theorem decodeFields_shl (h : opcodeField w = 0b1111) (h11 : w.getLsbD 11 = false) (h5 : w.getLsbD 5 = false)
    (h4 : w.getLsbD 4 = false) : decodeFields w = .ok (.shl (rs1Field w) (imm6Field w)) := by
  rw [decodeFields_shift h, decodeShift, h11, h5, h4]; rfl
theorem decodeFields_sal (h : opcodeField w = 0b1111) (h11 : w.getLsbD 11 = false) (h5 : w.getLsbD 5 = true)
    (h4 : w.getLsbD 4 = false) : decodeFields w = .ok (.sal (rs1Field w) (imm6Field w)) := by
  rw [decodeFields_shift h, decodeShift, h11, h5, h4]; rfl
theorem decodeFields_shr (h : opcodeField w = 0b1111) (h11 : w.getLsbD 11 = false) (h5 : w.getLsbD 5 = false)
    (h4 : w.getLsbD 4 = true) : decodeFields w = .ok (.shr (rs1Field w) (imm6Field w)) := by
  rw [decodeFields_shift h, decodeShift, h11, h5, h4]; rfl
theorem decodeFields_sar (h : opcodeField w = 0b1111) (h11 : w.getLsbD 11 = false) (h5 : w.getLsbD 5 = true)
    (h4 : w.getLsbD 4 = true) : decodeFields w = .ok (.sar (rs1Field w) (imm6Field w)) := by
  rw [decodeFields_shift h, decodeShift, h11, h5, h4]; rfl

end

/-! ### Decoding what was encoded -/

/-- B format: the word of an opcode that the decoder reads as `instr` decodes to `instr` of the operands encoded. -/
theorem decode_encodeB {op : BitVec 4} {instr : Reg → Reg → BitVec 4 → Instr}
    (hrow : ∀ {w}, opcodeField w = op → decodeFields w = .ok (instr (rs1Field w) (rs2Field w) (imm4Field w)))
    (strict : Bool) (rs1 rs2 : Reg) (imm4 : BitVec 4) (hused : (instr rs1 rs2 imm4).unusedMask = 0) :
    decode strict (encodeB op rs1 rs2 imm4) = .ok (instr rs1 rs2 imm4) := by
  refine decode_of_decodeFields ?_ (by simp [hused]) strict
  rw [hrow (opcodeField_encodeB op rs1 rs2 imm4), rs1Field_encodeB, rs2Field_encodeB, imm4Field_encodeB]

/-- LS format with LS = 10; the two unused bits are written as 0. -/
theorem decode_encodeLS_ld (strict : Bool) (rd rs1 : Reg) : decode strict (encodeLS 0b10 rd rs1) = .ok (.ld rd rs1) :=
  decode_of_decodeFields ((decodeFields_loadStore (opcodeField_encodeLS _ _ _)).trans (decodeLoadStore_ld rd rs1))
    (Laws.UnusedClear.ld rd rs1) strict

/-- LS format with LS = 01. -/
theorem decode_encodeLS_str (strict : Bool) (rd rs1 : Reg) : decode strict (encodeLS 0b01 rd rs1) = .ok (.str rd rs1) :=
  decode_of_decodeFields ((decodeFields_loadStore (opcodeField_encodeLS _ _ _)).trans (decodeLoadStore_str rd rs1))
    (Laws.UnusedClear.str rd rs1) strict

/-- S format, for an amount that is no negative number: A and D select the shift. -/
theorem decode_encodeS {ad : BitVec 2} {instr : Reg → BitVec 6 → Instr}
    (hrow : ∀ {w}, opcodeField w = 0b1111 → w.getLsbD 11 = false → w.getLsbD 5 = ad.getLsbD 1 →
      w.getLsbD 4 = ad.getLsbD 0 → decodeFields w = .ok (instr (rs1Field w) (imm6Field w)))
    (strict : Bool) (rs1 : Reg) {imm6 : BitVec 6} (hamount : imm6.msb = false)
    (hused : (instr rs1 imm6).unusedMask = 0) :
    decode strict (encodeS ad rs1 imm6) = .ok (instr rs1 imm6) := by
  obtain ⟨hsign, ha, hd⟩ := selectors_encodeS rs1 ad imm6
  refine decode_of_decodeFields ?_ (by simp [hused]) strict
  rw [hrow (opcodeField_encodeS rs1 ad imm6) (hsign.trans hamount) ha hd, rs1Field_encodeS, imm6Field_encodeS]

/-- Settles O51: one lemma per format reads the fields back. -/
theorem decodeOfEncodeIsTheInstruction : Obligations.DecodeOfEncodeIsTheInstruction := by
  intro strict i hwf
  cases i with
  | halt => exact decode_of_decodeFields (decodeFields_halt rfl) Laws.UnusedClear.halt strict
  | addr rd rs1 rs2 => exact decode_encodeR decodeFields_addr strict rd rs1 rs2 rfl
  | andr rd rs1 rs2 => exact decode_encodeR decodeFields_andr strict rd rs1 rs2 rfl
  | nandr rd rs1 rs2 => exact decode_encodeR decodeFields_nandr strict rd rs1 rs2 rfl
  | orr rd rs1 rs2 => exact decode_encodeR decodeFields_orr strict rd rs1 rs2 rfl
  | subr rd rs1 rs2 => exact decode_encodeR decodeFields_subr strict rd rs1 rs2 rfl
  | addi rd imm8 => exact decode_encodeI decodeFields_addi strict rd imm8 rfl
  | movu rd imm8 => exact decode_encodeI decodeFields_movu strict rd imm8 rfl
  | movl rd imm8 => exact decode_encodeI decodeFields_movl strict rd imm8 rfl
  | jmp imm10 => exact decode_encodeJ_jmp strict imm10
  | ret => exact decode_encodeJ_ret strict
  | beq rs1 rs2 imm4 => exact decode_encodeB decodeFields_beq strict rs1 rs2 imm4 rfl
  | bne rs1 rs2 imm4 => exact decode_encodeB decodeFields_bne strict rs1 rs2 imm4 rfl
  | bgt rs1 rs2 imm4 => exact decode_encodeB decodeFields_bgt strict rs1 rs2 imm4 rfl
  | blt rs1 rs2 imm4 => exact decode_encodeB decodeFields_blt strict rs1 rs2 imm4 rfl
  | ld rd rs1 => exact decode_encodeLS_ld strict rd rs1
  | str rd rs1 => exact decode_encodeLS_str strict rd rs1
  | shl rs1 imm6 => exact decode_encodeS decodeFields_shl strict rs1 (by simpa [Instr.wellFormed] using hwf) rfl
  | sal rs1 imm6 => exact decode_encodeS decodeFields_sal strict rs1 (by simpa [Instr.wellFormed] using hwf) rfl
  | shr rs1 imm6 => exact decode_encodeS decodeFields_shr strict rs1 (by simpa [Instr.wellFormed] using hwf) rfl
  | sar rs1 imm6 => exact decode_encodeS decodeFields_sar strict rs1 (by simpa [Instr.wellFormed] using hwf) rfl

/-! ### Encoding what was decoded -/

section
variable {w : Word} {op : BitVec 4}

/-- Two neighbouring fields of a word are one field. -/
theorem append_neighbours {hi lo n m : Nat} (h : hi = lo + m := by rfl) :
    w.extractLsb' hi n ++ w.extractLsb' lo m = w.extractLsb' lo (n + m) :=
  BitVec.extractLsb'_append_extractLsb'_eq_extractLsb' h

theorem encodeR_fields (h : opcodeField w = op) : encodeR op (rdField w) (rs1Field w) (rs2Field w) = w := by
  rw [encodeR, rdField, rs1Field, rs2Field, Reg.field_ofField, Reg.field_ofField, Reg.field_ofField, ← h, opcodeField,
    append_neighbours, append_neighbours, append_neighbours]
  exact BitVec.extractLsb'_eq_self

theorem encodeI_fields (h : opcodeField w = op) : encodeI op (rdField w) (imm8Field w) = w := by
  rw [encodeI, rdField, imm8Field, Reg.field_ofField, ← h, opcodeField, append_neighbours, append_neighbours]
  exact BitVec.extractLsb'_eq_self

theorem encodeB_fields (h : opcodeField w = op) : encodeB op (rs1Field w) (rs2Field w) (imm4Field w) = w := by
  rw [encodeB, rs1Field, rs2Field, imm4Field, Reg.field_ofField, Reg.field_ofField, ← h, opcodeField,
    append_neighbours, append_neighbours, append_neighbours]
  exact BitVec.extractLsb'_eq_self

theorem encodeS_fields {ad : BitVec 2} (h : opcodeField w = 0b1111) (had : w.extractLsb' 4 2 = ad) :
    encodeS ad (rs1Field w) (imm6Field w) = w := by
  have hop : 0b1111#4 = w.extractLsb' 0 4 := h.symm
  rw [encodeS, rs1Field, imm6Field, Reg.field_ofField, ← had, hop, append_neighbours, append_neighbours,
    append_neighbours]
  exact BitVec.extractLsb'_eq_self

/-- J format: bit 5 is unused. -/
theorem encodeJ_fields {r : BitVec 1} (h : opcodeField w = 0b1001) (hr : w.extractLsb' 4 1 = r) :
    encodeJ (imm10Field w) r = w &&& ~~~0x0020 := by
  have hop : 0b1001#4 = w.extractLsb' 0 4 := h.symm
  rw [encodeJ, imm10Field, ← hr, hop]
  apply BitVec.eq_of_getLsbD_eq
  intro k hk
  interval_cases k <;> simp only [BitVec.getLsbD_append] <;> simp

/-- LS format: bits 11 and 10 are unused. -/
theorem encodeLS_fields {ls : BitVec 2} (h : opcodeField w = 0b1110) (hls : w.extractLsb' 8 2 = ls) :
    encodeLS ls (rdField w) (rs1Field w) = w &&& ~~~0x0C00 := by
  have hop : 0b1110#4 = w.extractLsb' 0 4 := h.symm
  rw [encodeLS, rdField, rs1Field, Reg.field_ofField, Reg.field_ofField, ← hls, hop]
  apply BitVec.eq_of_getLsbD_eq
  intro k hk
  interval_cases k <;> simp only [BitVec.getLsbD_append] <;> simp

/-- `halt` uses no bit but its opcode's. -/
theorem encode_halt_eq (h : opcodeField w = 0b0000) : encode .halt = w &&& ~~~0xFFF0 := by
  have hop : 0b0000#4 = w.extractLsb' 0 4 := h.symm
  rw [encode, hop]
  apply BitVec.eq_of_getLsbD_eq
  intro k hk
  interval_cases k <;> simp only [BitVec.getLsbD_append] <;> simp

/-- `ret` uses no bit but R and its opcode's. -/
theorem encode_ret_eq (h : opcodeField w = 0b1001) (hr : w.extractLsb' 4 1 = 0b1) : encode .ret = w &&& ~~~0xFFE0 := by
  have hop : 0b1001#4 = w.extractLsb' 0 4 := h.symm
  rw [encode, encodeJ, hop, ← hr]
  apply BitVec.eq_of_getLsbD_eq
  intro k hk
  interval_cases k <;> simp only [BitVec.getLsbD_append] <;> simp

theorem extract_one {k : Nat} {b : Bool} (h : w.getLsbD k = b) : w.extractLsb' k 1 = BitVec.ofBool b := by
  apply BitVec.eq_of_getLsbD_eq
  intro j hj
  interval_cases j
  simp [← h]

theorem extract_two {k : Nat} {a b : Bool} (ha : w.getLsbD (k + 1) = a) (hb : w.getLsbD k = b) :
    w.extractLsb' k 2 = BitVec.ofBool a ++ BitVec.ofBool b := by
  rw [← extract_one ha, ← extract_one hb, append_neighbours]

end

/-- A format that uses every bit has the mask 0. -/
theorem and_not_zero (w : Word) : w &&& ~~~0 = w := BitVec.and_allOnes

theorem encode_decodeJump {w : Word} (h : opcodeField w = 0b1001) :
    (decodeJump w).wellFormed = true ∧ encode (decodeJump w) = w &&& ~~~(decodeJump w).unusedMask := by
  unfold decodeJump
  split
  · exact ⟨rfl, encode_ret_eq h (extract_one ‹_›)⟩
  · exact ⟨rfl, encodeJ_fields h (extract_one (Bool.eq_false_iff.2 ‹_›))⟩

theorem encode_of_decodeLoadStore {w : Word} {i : Instr} (h : opcodeField w = 0b1110) (hi : decodeLoadStore w = .ok i) :
    i.wellFormed = true ∧ encode i = w &&& ~~~i.unusedMask := by
  unfold decodeLoadStore at hi
  split at hi
  case h_1 h9 h8 => cases hi; exact ⟨rfl, encodeLS_fields h (extract_two h9 h8)⟩
  case h_2 h9 h8 => cases hi; exact ⟨rfl, encodeLS_fields h (extract_two h9 h8)⟩
  case h_3 => cases hi

theorem encode_of_decodeShift {w : Word} {i : Instr} (h : opcodeField w = 0b1111) (hi : decodeShift w = .ok i) :
    i.wellFormed = true ∧ encode i = w &&& ~~~i.unusedMask := by
  unfold decodeShift at hi
  split at hi
  · cases hi
  · rename_i h11
    cases hi
    have hsign : (imm6Field w).msb = false := by
      rw [BitVec.msb_eq_getLsbD_last, imm6Field, BitVec.getLsbD_extractLsb', Bool.eq_false_iff]
      simpa using h11
    split <;> rename_i h5 h4 <;>
      exact ⟨by simp [Instr.wellFormed, hsign],
        (encodeS_fields h (extract_two h5 h4)).trans (and_not_zero w).symm⟩

theorem opcodeField_of_toNat {w : Word} {n : Nat} (h : (opcodeField w).toNat = n) :
    opcodeField w = BitVec.ofNat 4 n := by
  rw [← h, BitVec.ofNat_toNat, BitVec.setWidth_eq]

/-- Everything the decoder can do with a word: leave it to the LS or the S format, or answer the instruction whose
encoding is the word with its unused bits clear. -/
theorem decodeFields_cases (w : Word) :
    (opcodeField w = 0b1110 ∧ decodeFields w = decodeLoadStore w) ∨
    (opcodeField w = 0b1111 ∧ decodeFields w = decodeShift w) ∨
    ∃ i, decodeFields w = .ok i ∧ i.wellFormed = true ∧ encode i = w &&& ~~~i.unusedMask := by
  generalize hd : decodeFields w = d
  unfold decodeFields at hd
  split at hd
  all_goals subst hd
  case h_1 hop => exact .inr (.inr ⟨_, rfl, rfl, encode_halt_eq (opcodeField_of_toNat hop)⟩)
  case h_10 hop => exact .inr (.inr ⟨_, rfl, encode_decodeJump (opcodeField_of_toNat hop)⟩)
  case h_15 hop => exact .inl ⟨opcodeField_of_toNat hop, rfl⟩
  case h_16 =>
    have hlast : (opcodeField w).toNat = 15 := by
      have hlt := (opcodeField w).isLt
      simp only [imp_false] at *
      omega
    exact .inr (.inl ⟨opcodeField_of_toNat hlast, rfl⟩)
  case h_2 hop | h_3 hop | h_4 hop | h_5 hop | h_6 hop =>
    exact .inr (.inr ⟨_, rfl, rfl, (encodeR_fields (opcodeField_of_toNat hop)).trans (and_not_zero w).symm⟩)
  case h_7 hop | h_8 hop | h_9 hop =>
    exact .inr (.inr ⟨_, rfl, rfl, (encodeI_fields (opcodeField_of_toNat hop)).trans (and_not_zero w).symm⟩)
  case h_11 hop | h_12 hop | h_13 hop | h_14 hop =>
    exact .inr (.inr ⟨_, rfl, rfl, (encodeB_fields (opcodeField_of_toNat hop)).trans (and_not_zero w).symm⟩)

theorem encode_of_decodeFields {w : Word} {i : Instr} (h : decodeFields w = .ok i) :
    i.wellFormed = true ∧ encode i = w &&& ~~~i.unusedMask := by
  rcases decodeFields_cases w with ⟨hop, hw⟩ | ⟨hop, hw⟩ | ⟨j, hw, hj⟩
  · exact encode_of_decodeLoadStore hop (hw.symm.trans h)
  · exact encode_of_decodeShift hop (hw.symm.trans h)
  · obtain rfl : j = i := Except.ok.inj (hw.symm.trans h)
    exact hj

/-- Settles O52: the fields the decoder reads are the fields the encoder places, format by format. -/
theorem encodeOfDecodeIsTheWordWithUnusedBitsClear : Obligations.EncodeOfDecodeIsTheWordWithUnusedBitsClear :=
  fun w _ h => encode_of_decodeFields ((decode_false w).symm.trans h)

/-! ### The opcode table, the unused bits and the illegal words -/

/-- A word of a row has the row's opcode, since every mask covers it. -/
theorem opcodeField_of_matchesWord {m : Mnemonic} {w : Word} (h : m.matchesWord w = true) :
    opcodeField w = opcodeField m.tableRow.2 := by
  have hmask : m.tableRow.1.extractLsb' 0 4 = BitVec.allOnes 4 := by cases m <;> rfl
  have hfield : (w &&& m.tableRow.1).extractLsb' 0 4 = opcodeField w := by
    rw [BitVec.extractLsb'_and, hmask, BitVec.and_allOnes, opcodeField]
  rw [← hfield, beq_iff_eq.1 h, opcodeField]

/-- A word of a row has the row's selector bits, those under its mask. -/
theorem getLsbD_of_matchesWord {m : Mnemonic} {w : Word} {k : Nat} (h : m.matchesWord w = true)
    (hk : m.tableRow.1.getLsbD k = true) : w.getLsbD k = m.tableRow.2.getLsbD k := by
  rw [← beq_iff_eq.1 h, BitVec.getLsbD_and, hk, Bool.and_true]

/-- A word of a row decodes to an instruction of the row. -/
theorem decodeFields_of_matchesWord {m : Mnemonic} {w : Word} (h : m.matchesWord w = true) :
    ∃ i, decodeFields w = .ok i ∧ i.mnemonic = m := by
  have hop := opcodeField_of_matchesWord h
  have hbit := fun k => getLsbD_of_matchesWord (k := k) h
  cases m with
  | halt => exact ⟨_, decodeFields_halt hop, rfl⟩
  | addr => exact ⟨_, decodeFields_addr hop, rfl⟩
  | andr => exact ⟨_, decodeFields_andr hop, rfl⟩
  | nandr => exact ⟨_, decodeFields_nandr hop, rfl⟩
  | orr => exact ⟨_, decodeFields_orr hop, rfl⟩
  | subr => exact ⟨_, decodeFields_subr hop, rfl⟩
  | addi => exact ⟨_, decodeFields_addi hop, rfl⟩
  | movu => exact ⟨_, decodeFields_movu hop, rfl⟩
  | movl => exact ⟨_, decodeFields_movl hop, rfl⟩
  | jmp => exact ⟨_, decodeFields_jmp hop (hbit 4 rfl), rfl⟩
  | ret => exact ⟨_, decodeFields_ret hop (hbit 4 rfl), rfl⟩
  | beq => exact ⟨_, decodeFields_beq hop, rfl⟩
  | bne => exact ⟨_, decodeFields_bne hop, rfl⟩
  | bgt => exact ⟨_, decodeFields_bgt hop, rfl⟩
  | blt => exact ⟨_, decodeFields_blt hop, rfl⟩
  | ld => exact ⟨_, decodeFields_ld hop (hbit 9 rfl) (hbit 8 rfl), rfl⟩
  | str => exact ⟨_, decodeFields_str hop (hbit 9 rfl) (hbit 8 rfl), rfl⟩
  | shl => exact ⟨_, decodeFields_shl hop (hbit 11 rfl) (hbit 5 rfl) (hbit 4 rfl), rfl⟩
  | sal => exact ⟨_, decodeFields_sal hop (hbit 11 rfl) (hbit 5 rfl) (hbit 4 rfl), rfl⟩
  | shr => exact ⟨_, decodeFields_shr hop (hbit 11 rfl) (hbit 5 rfl) (hbit 4 rfl), rfl⟩
  | sar => exact ⟨_, decodeFields_sar hop (hbit 11 rfl) (hbit 5 rfl) (hbit 4 rfl), rfl⟩

/-- The per-instruction family `Laws.TableRow`, of any instruction. -/
theorem matchesWord_encode (i : Instr) : Laws.TableRow.Statement i := by
  cases i with
  | halt => exact Laws.TableRow.halt
  | addr rd rs1 rs2 => exact Laws.TableRow.addr rd rs1 rs2
  | andr rd rs1 rs2 => exact Laws.TableRow.andr rd rs1 rs2
  | nandr rd rs1 rs2 => exact Laws.TableRow.nandr rd rs1 rs2
  | orr rd rs1 rs2 => exact Laws.TableRow.orr rd rs1 rs2
  | subr rd rs1 rs2 => exact Laws.TableRow.subr rd rs1 rs2
  | addi rd imm8 => exact Laws.TableRow.addi rd imm8
  | movu rd imm8 => exact Laws.TableRow.movu rd imm8
  | movl rd imm8 => exact Laws.TableRow.movl rd imm8
  | jmp imm10 => exact Laws.TableRow.jmp imm10
  | ret => exact Laws.TableRow.ret
  | beq rs1 rs2 imm4 => exact Laws.TableRow.beq rs1 rs2 imm4
  | bne rs1 rs2 imm4 => exact Laws.TableRow.bne rs1 rs2 imm4
  | bgt rs1 rs2 imm4 => exact Laws.TableRow.bgt rs1 rs2 imm4
  | blt rs1 rs2 imm4 => exact Laws.TableRow.blt rs1 rs2 imm4
  | ld rd rs1 => exact Laws.TableRow.ld rd rs1
  | str rd rs1 => exact Laws.TableRow.str rd rs1
  | shl rs1 imm6 => exact Laws.TableRow.shl rs1 imm6
  | sal rs1 imm6 => exact Laws.TableRow.sal rs1 imm6
  | shr rs1 imm6 => exact Laws.TableRow.shr rs1 imm6
  | sar rs1 imm6 => exact Laws.TableRow.sar rs1 imm6

/-- The unused bits by row: they do not depend on the operands. -/
def Mnemonic.unusedMask : Mnemonic → Word
  | .halt => 0xFFF0
  | .jmp => 0x0020
  | .ret => 0xFFE0
  | .ld | .str => 0x0C00
  | .addr | .andr | .nandr | .orr | .subr | .addi | .movu | .movl | .beq | .bne | .bgt | .blt | .shl | .sal | .shr
  | .sar => 0

theorem Instr.unusedMask_eq (i : Instr) : i.unusedMask = i.mnemonic.unusedMask := by cases i <;> rfl

/-- The unused bits lie outside the mask of the row, so changing them keeps a word in the row. -/
theorem Mnemonic.not_unusedMask_and_row (m : Mnemonic) : ~~~m.unusedMask &&& m.tableRow.1 = m.tableRow.1 := by
  cases m <;> rfl

/-- Words that agree on the used bits of an instruction are of its row together. -/
theorem matchesWord_congr {i : Instr} {w u : Word} (h : w &&& ~~~i.unusedMask = u &&& ~~~i.unusedMask) :
    i.mnemonic.matchesWord w = i.mnemonic.matchesWord u := by
  rw [Instr.unusedMask_eq] at h
  rw [Mnemonic.matchesWord, Mnemonic.matchesWord, ← i.mnemonic.not_unusedMask_and_row, ← BitVec.and_assoc, h,
    BitVec.and_assoc]

/-- A decoded word is of the row of its instruction, as the encoding of that instruction is. -/
theorem matchesWord_of_decodeFields {w : Word} {i : Instr} (h : decodeFields w = .ok i) :
    i.mnemonic.matchesWord w = true := by
  obtain ⟨hwf, henc⟩ := encode_of_decodeFields h
  rw [matchesWord_congr (u := encode i), matchesWord_encode i hwf]
  rw [henc, BitVec.and_assoc, BitVec.and_self]

/-- Settles O53: a word's row gives its opcode and selectors, and so its instruction; the round trip gives the
converse. -/
theorem decoderAgreesWithTheOpcodeTable : Obligations.DecoderAgreesWithTheOpcodeTable := by
  intro w m
  rw [decode_false]
  constructor
  · exact decodeFields_of_matchesWord
  · rintro ⟨i, hi, rfl⟩
    exact matchesWord_of_decodeFields hi

/-- Well-formed instructions with the same encoding are the same. -/
theorem encode_injective {i j : Instr} (hi : i.wellFormed = true) (hj : j.wellFormed = true)
    (h : encode i = encode j) : i = j := by
  have hdec := decodeOfEncodeIsTheInstruction false i hi
  rw [h, decodeOfEncodeIsTheInstruction false j hj] at hdec
  exact (Except.ok.inj hdec).symm

/-- Words that agree on the used bits of an instruction decode to it together: the second word is of the same row, so
it decodes to an instruction with the same unused bits and, by the round trip, the same encoding. -/
theorem decodeFields_congr {i : Instr} {w u : Word} (h : w &&& ~~~i.unusedMask = u &&& ~~~i.unusedMask)
    (hw : decodeFields w = .ok i) : decodeFields u = .ok i := by
  have hrow := (matchesWord_congr h).symm.trans (matchesWord_of_decodeFields hw)
  obtain ⟨j, hu, hrow⟩ := decodeFields_of_matchesWord hrow
  obtain ⟨hiwf, hi⟩ := encode_of_decodeFields hw
  obtain ⟨hjwf, hj⟩ := encode_of_decodeFields hu
  rw [hu, encode_injective hjwf hiwf (by rw [hi, hj, h, j.unusedMask_eq, hrow, ← i.unusedMask_eq])]

/-- Replacing bits under a mask leaves the others. -/
theorem replaced_and_not (w u mask : Word) : ((w &&& ~~~mask) ||| (u &&& mask)) &&& ~~~mask = w &&& ~~~mask := by
  ext k hk
  simp
  cases mask[k] <;> simp

theorem decode_true_iff (w : Word) (i : Instr) :
    decode true w = .ok i ↔ decode false w = .ok i ∧ w &&& i.unusedMask = 0 := by
  rw [decode_false, decode]
  cases decodeFields w with
  | error why => simp
  | ok j =>
    simp only [Bool.true_and, bne_iff_ne]
    split
    case isTrue hset =>
      refine ⟨fun h => (nomatch h), fun ⟨h, hclear⟩ => ?_⟩
      cases h
      exact absurd hclear hset
    case isFalse hclear =>
      refine ⟨fun h => ?_, And.left⟩
      cases h
      exact ⟨rfl, not_not.1 hclear⟩

/-- Settles O50: the changed word agrees with the old one on the used bits; the check of `STRICT_UNUSED` is the only
difference it makes. -/
theorem unusedBitsMatterOnlyWhenStrict : Obligations.UnusedBitsMatterOnlyWhenStrict := by
  refine ⟨fun w u i h => ?_, decode_true_iff⟩
  rw [decode_false] at h ⊢
  exact decodeFields_congr (replaced_and_not w u i.unusedMask).symm h

theorem decodeLoadStore_error_iff {w : Word} {why : Illegal} :
    decodeLoadStore w = .error why ↔ w.getLsbD 9 = w.getLsbD 8 ∧ why = .unassignedSelector := by
  rw [decodeLoadStore]
  cases w.getLsbD 9 <;> cases w.getLsbD 8 <;> simp [eq_comm]

theorem decodeShift_error_iff {w : Word} {why : Illegal} :
    decodeShift w = .error why ↔ w.getLsbD 11 = true ∧ why = .negativeAmount := by
  rw [decodeShift]
  cases w.getLsbD 11 <;> simp [eq_comm]

/-- Only the LS and S formats have illegal words. -/
theorem decodeFields_error_iff {w : Word} {why : Illegal} : decodeFields w = .error why ↔
    (opcodeField w = 0b1110 ∧ decodeLoadStore w = .error why) ∨
    (opcodeField w = 0b1111 ∧ decodeShift w = .error why) := by
  constructor
  · intro h
    rcases decodeFields_cases w with ⟨hop, hw⟩ | ⟨hop, hw⟩ | ⟨i, hw, -⟩
    · exact .inl ⟨hop, hw.symm.trans h⟩
    · exact .inr ⟨hop, hw.symm.trans h⟩
    · rw [hw] at h; cases h
  · rintro (⟨hop, h⟩ | ⟨hop, h⟩)
    · rwa [decodeFields_loadStore hop]
    · rwa [decodeFields_shift hop]

theorem opcodeField_eq_iff {w : Word} {op : BitVec 4} : opcodeField w = op ↔ w.toNat % 16 = op.toNat := by
  rw [← BitVec.toNat_inj, opcodeField, BitVec.extractLsb'_toNat, Nat.shiftRight_zero]

/-- The number of a word is that of its upper part, shifted, and that of its lower part. -/
theorem toNat_append_eq {n m : Nat} (u : BitVec n) (v : BitVec m) : (u ++ v).toNat = u.toNat * 2 ^ m + v.toNat := by
  rw [BitVec.toNat_append, ← Nat.shiftLeft_add_eq_or_of_lt v.isLt, Nat.shiftLeft_eq]

theorem getLsbD_eq_decide (w : Word) (k : Nat) : w.getLsbD k = decide (w.toNat / 2 ^ k % 2 = 1) := by
  rw [BitVec.getLsbD, Nat.testBit_eq_decide_div_mod_eq]

/-- Settles O49: the two kinds are the two ways the LS and S formats reject a word, read off its number. -/
theorem illegalWordsAreExactlyTheseTwoKinds : Obligations.IllegalWordsAreExactlyTheseTwoKinds := by
  intro w why
  have hls : w.getLsbD 9 = w.getLsbD 8 ↔ w.toNat / 256 % 4 = 0 ∨ w.toNat / 256 % 4 = 3 := by
    rw [getLsbD_eq_decide, getLsbD_eq_decide, decide_eq_decide]
    omega
  have hsign : w.getLsbD 11 = true ↔ w.toNat / 2048 % 2 = 1 := by
    rw [getLsbD_eq_decide, decide_eq_true_iff]; rfl
  rw [decode_false, decodeFields_error_iff, decodeLoadStore_error_iff, decodeShift_error_iff, opcodeField_eq_iff,
    opcodeField_eq_iff, hls, hsign]
  rfl

/-! ### The B, LS and S formats written out, and the words of the examples -/

/-- Settles O45: each word written out is one of the B format, under the opcode of its row. -/
theorem branchFormatPlacesItsFields : Obligations.BranchFormatPlacesItsFields :=
  ⟨fun strict rs1 rs2 imm4 =>
    ⟨decode_encodeB decodeFields_beq strict rs1 rs2 imm4 rfl, decode_encodeB decodeFields_bne strict rs1 rs2 imm4 rfl,
      decode_encodeB decodeFields_bgt strict rs1 rs2 imm4 rfl, decode_encodeB decodeFields_blt strict rs1 rs2 imm4 rfl⟩,
    rfl, rfl, rfl, rfl⟩

/-- Settles O46: the words written out are those of the LS format with LS = 10 and LS = 01. -/
theorem loadStoreFormatPlacesItsFields : Obligations.LoadStoreFormatPlacesItsFields :=
  ⟨fun strict rd rs1 => ⟨decode_encodeLS_ld strict rd rs1, decode_encodeLS_str strict rd rs1, fun _ => ⟨rfl, rfl⟩,
    rfl, rfl, rfl⟩, rfl, rfl⟩

/-- A and D written as two fields are the field of the S format. -/
theorem encodeS_split (rs1 : Reg) (imm6 : BitVec 6) (a d : BitVec 1) :
    rs1.field ++ imm6 ++ a ++ d ++ 0b1111#4 = encodeS (a ++ d) rs1 imm6 := by
  rw [encodeS, BitVec.append_assoc (x₁ := rs1.field ++ imm6), BitVec.cast_eq]

/-- Settles O47: an amount below 32 has bit 5 clear, and A and D select the shift. -/
theorem shiftFormatPlacesItsFields : Obligations.ShiftFormatPlacesItsFields := by
  intro strict rs1 imm6 hlt
  have hamount : imm6.msb = false := by rw [BitVec.msb_eq_decide, decide_eq_false_iff_not]; omega
  exact ⟨encodeS_split rs1 imm6 0 0 ▸ decode_encodeS decodeFields_shl strict rs1 hamount rfl,
    encodeS_split rs1 imm6 1 0 ▸ decode_encodeS decodeFields_sal strict rs1 hamount rfl,
    encodeS_split rs1 imm6 0 1 ▸ decode_encodeS decodeFields_shr strict rs1 hamount rfl,
    encodeS_split rs1 imm6 1 1 ▸ decode_encodeS decodeFields_sar strict rs1 hamount rfl,
    by simp [Machine.tableReads, Machine.tableWrites]⟩

/-- Settles O48: eighteen closed facts, evaluated by the decoder. -/
theorem exampleWordsDecode : Obligations.ExampleWordsDecode :=
  ⟨rfl, rfl, rfl, rfl, rfl, rfl, rfl, rfl, rfl, rfl, rfl, rfl, rfl, rfl, rfl, rfl, rfl, rfl⟩

end Sys2Proof
end

section
/-! PROOFS. What each instruction does to the state, and what it leaves unchanged (40_register_mode.md to
46_halt_mode.md). First the effect of each shared ending (`writeBack`, a new `pc`, a memory access), then the
arithmetic of each instruction. -/

namespace Sys2Proof.Machine

/-! ### The shared endings -/

theorem advanced_of_pc {s t : State} (h : t.pc = s.pc + 1) : Advanced s t := by
  rw [Advanced, h]
  exact BitVec.toNat_add s.pc 1

theorem writesRegister_setReg_advance {rd : Reg} (hrd : rd ≠ .pc) (v : Word) (s : State) :
    WritesRegister rd v s (s.setReg rd v).advance := by
  refine ⟨?_, fun q hq hother => ?_, fun _ => rfl, ⟨rfl, rfl⟩, advanced_of_pc rfl⟩
  · rw [State.readReg_advance _ hrd, State.readReg_setReg_same s v hrd]
  · rw [State.readReg_advance _ hq, State.readReg_setReg_other s v hother]

/-- An instruction that ends in `writeBack` of `v`, whatever is said of `v`. -/
theorem exec_writesRegister {i : Instr} {rd : Reg} {v : Word} {s : State} {P : Word → Prop}
    (hexec : exec i s = writeBack i rd v s) (hrd : rd ≠ .pc) (hv : P v) :
    ∃ t v, exec i s = .next t ∧ P v ∧ WritesRegister rd v s t :=
  ⟨_, v, hexec.trans (writeBack_of_ne_pc i hrd v s), hv, writesRegister_setReg_advance hrd v s⟩

theorem onlySetsPc_setPc (s : State) (target : Word) : OnlySetsPc s (s.setPc target) :=
  ⟨fun _ hr => State.readReg_setPc s target hr, fun _ => rfl, rfl, rfl⟩

/-- A sum with a sign-extended immediate is the exact signed sum modulo 65536 (00_scope.md R7, R22). -/
theorem toNat_add_sext {n : Nat} (hn : n ≤ 16) (a : Word) (imm : BitVec n) :
    ((a + sext imm).toNat : Int) = (a.toNat + imm.toInt) % 65536 := by
  have hsigned : (sext imm).toInt = imm.toInt := BitVec.toInt_signExtend_of_le hn
  rw [← hsigned, BitVec.toNat_add, BitVec.toInt_eq_toNat_cond]
  split <;> omega

/-! ### Register mode -/

/-- Settles O4: the result is a sum of words. -/
theorem addrWritesLowBitsOfSum : Obligations.AddrWritesLowBitsOfSum := fun s rd rs1 rs2 hrd =>
  exec_writesRegister (exec_addr_eq_writeBack rd rs1 rs2 s) hrd (BitVec.toNat_add _ _)

/-- Settles O5: bit by bit. -/
theorem andrWritesBitwiseAnd : Obligations.AndrWritesBitwiseAnd := fun s rd rs1 rs2 hrd =>
  exec_writesRegister (v := bitAnd (s.readReg rs1) (s.readReg rs2)) rfl hrd fun k _ => by simp [bitAnd]

/-- Settles O6: bit by bit. -/
theorem nandrWritesBitwiseNand : Obligations.NandrWritesBitwiseNand := fun s rd rs1 rs2 hrd =>
  exec_writesRegister (v := bitNand (s.readReg rs1) (s.readReg rs2)) rfl hrd fun k hk => by simp [bitNand, hk]

/-- Settles O7: bit by bit. -/
theorem orrWritesBitwiseOr : Obligations.OrrWritesBitwiseOr := fun s rd rs1 rs2 hrd =>
  exec_writesRegister (v := bitOr (s.readReg rs1) (s.readReg rs2)) rfl hrd fun k _ => by simp [bitOr]

/-- Settles O8: the result is a difference of words. -/
theorem subrWritesLowBitsOfDifference : Obligations.SubrWritesLowBitsOfDifference := fun s rd rs1 rs2 hrd =>
  exec_writesRegister (v := difference (s.readReg rs1) (s.readReg rs2)) rfl hrd <| by
    rw [difference, BitVec.toNat_sub, Nat.add_comm]

/-! ### Immediate mode -/

theorem exec_addi_eq_writeBack (rd : Reg) (imm8 : BitVec 8) (s : State) :
    exec (.addi rd imm8) s = writeBack (.addi rd imm8) rd (s.readReg rd + sext imm8) s := rfl

/-- Settles O9: the immediate is added by `toNat_add_sext`. -/
theorem addiAddsSignedImmediate : Obligations.AddiAddsSignedImmediate := fun s rd imm8 hrd =>
  exec_writesRegister (exec_addi_eq_writeBack rd imm8 s) hrd (toNat_add_sext (by decide) _ imm8)

/-- Settles O10: the result is the two bytes side by side. -/
theorem movuReplacesUpperByte : Obligations.MovuReplacesUpperByte := fun s rd imm8 hrd =>
  exec_writesRegister (v := withUpper imm8 (s.readReg rd)) rfl hrd <| by
    rw [withUpper, toNat_append_eq, BitVec.extractLsb'_toNat, Nat.shiftRight_zero]
    rfl

/-- Settles O11: the result is the two bytes side by side. -/
theorem movlReplacesLowerByte : Obligations.MovlReplacesLowerByte := fun s rd imm8 hrd =>
  exec_writesRegister (v := withLower imm8 (s.readReg rd)) rfl hrd <| by
    have hlt := (s.readReg rd).isLt
    rw [withLower, toNat_append_eq, BitVec.extractLsb'_toNat, Nat.shiftRight_eq_div_pow]
    omega

/-! ### Jump mode -/

theorem exec_jmp (imm10 : BitVec 10) (s : State) :
    exec (.jmp imm10) s = .next ((s.setReg .ra s.nextPc).setPc (s.target imm10)) := rfl

theorem exec_ret (s : State) : exec .ret s = .next (s.setPc (s.readReg .ra)) := rfl

theorem toNat_nextPc (s : State) : s.nextPc.toNat = (s.pc.toNat + 1) % 65536 := BitVec.toNat_add s.pc 1

theorem toNat_target {n : Nat} (hn : n ≤ 16) (s : State) (offset : BitVec n) :
    ((s.target offset).toNat : Int) = (s.pc.toNat + offset.toInt) % 65536 := toNat_add_sext hn s.pc offset

/-- Settles O12: both right sides use the `pc` before the jump. -/
theorem jmpLinksAndJumps : Obligations.JmpLinksAndJumps := by
  refine fun s imm10 => ⟨_, exec_jmp imm10 s, ?_, toNat_target (by decide) s imm10, fun q hq hra => ?_, fun _ => rfl,
    rfl, rfl⟩
  · rw [State.readReg_setPc _ _ (by decide), State.readReg_setReg_same _ _ (by decide)]
    exact toNat_nextPc s
  · rw [State.readReg_setPc _ _ hq, State.readReg_setReg_other _ _ hra]

/-- Settles O13: `ret` only sets `pc`; a word that ends in 11001 has the opcode of the J format and R = 1. -/
theorem retJumpsToLinkRegister : Obligations.RetJumpsToLinkRegister := by
  refine ⟨fun s => ⟨_, exec_ret s, rfl, onlySetsPc_setPc s _⟩, fun s hra => ?_, rfl, fun u => ?_⟩
  · rw [exec_ret, hra]; rfl
  · rw [decode_false]
    refine decodeFields_ret (opcodeField_eq_iff.2 ?_) ?_
    · have hlow : (0b11001#5).toNat = 25 := rfl
      have hop : (0b1001 : BitVec 4).toNat = 9 := rfl
      rw [toNat_append_eq]
      omega
    · simp only [BitVec.getLsbD_append]; rfl

/-- Settles O14: the link that `jmp` wrote is where `ret` goes. -/
theorem returnComesBackAfterTheCall : Obligations.ReturnComesBackAfterTheCall := by
  intro s t u imm10 hjmp hlink
  obtain ⟨v, hv, hra, -⟩ := jmpLinksAndJumps s imm10
  obtain rfl : v = t := by rw [hv] at hjmp; cases hjmp; rfl
  exact ⟨_, exec_ret u, (congrArg BitVec.toNat hlink).trans hra, onlySetsPc_setPc u _⟩

/-! ### Branch mode -/

/-- A branch under a condition: it leads to the target where the condition holds and to the next word where it does
not (43_branch_mode.md R100). -/
theorem branchMode_effect {cond : Word → Word → Bool} {P Q : Prop} {s : State} {rs1 rs2 : Reg}
    (hP : P → cond (s.readReg rs1) (s.readReg rs2) = true) (hQ : Q → cond (s.readReg rs1) (s.readReg rs2) = false)
    (imm4 : BitVec 4) :
    ∃ t, branchMode cond rs1 rs2 imm4 s = .next t ∧ OnlySetsPc s t ∧
      (P → (t.pc.toNat : Int) = (s.pc.toNat + imm4.toInt) % 65536) ∧ (Q → Advanced s t) := by
  refine ⟨_, rfl, onlySetsPc_setPc s _, fun hp => ?_, fun hq => ?_⟩
  · rw [State.setPc_pc, if_pos (hP hp)]
    exact toNat_target (by decide) s imm4
  · exact advanced_of_pc (if_neg (Bool.eq_false_iff.1 (hQ hq)))

/-- Settles O15: `branchMode_effect` of equality. -/
theorem beqBranchesWhenEqual : Obligations.BeqBranchesWhenEqual := fun _ _ _ imm4 =>
  branchMode_effect (cond := condEqual) (by simp [condEqual]) (by simp [condEqual]) imm4

/-- Settles O16: `branchMode_effect` of inequality. -/
theorem bneBranchesWhenDifferent : Obligations.BneBranchesWhenDifferent := fun _ _ _ imm4 =>
  branchMode_effect (cond := condNotEqual) (by simp [condNotEqual]) (by simp [condNotEqual]) imm4

/-- Settles O17: `branchMode_effect` of the signed order, the operands exchanged. -/
theorem bgtBranchesWhenSignedGreater : Obligations.BgtBranchesWhenSignedGreater := fun _ _ _ imm4 =>
  branchMode_effect (cond := condGreater) (by simp [condGreater, BitVec.slt]) (by simp [condGreater, BitVec.slt]) imm4

/-- Settles O18: `branchMode_effect` of the signed order. -/
theorem bltBranchesWhenSignedLess : Obligations.BltBranchesWhenSignedLess := fun _ _ _ imm4 =>
  branchMode_effect (cond := condLess) (by simp [condLess, BitVec.slt]) (by simp [condLess, BitVec.slt]) imm4

/-! ### Load/Store mode -/

/-- An address inside memory, or any address under wrap, selects a word (20_memory.md R33). -/
theorem wordIndex_of_valid {mode : AddrMode} {a : Word} (h : a.toNat < 1024 ∨ mode = .wrap) :
    wordIndex mode a = some (a.toNat % 1024) := by
  by_cases hlt : a.toNat < memWords
  · rw [wordIndex_of_lt mode hlt, Nat.mod_eq_of_lt hlt]
  · obtain rfl := h.resolve_left hlt
    exact if_neg hlt

theorem wordIndex_eq_none_iff {mode : AddrMode} {a : Word} :
    wordIndex mode a = none ↔ 1024 ≤ a.toNat ∧ mode = .fault := by
  constructor
  · intro h
    have hinvalid : ¬(a.toNat < 1024 ∨ mode = .wrap) := fun hvalid => by
      rw [wordIndex_of_valid hvalid] at h; cases h
    obtain ⟨hle, hmode⟩ := not_or.1 hinvalid
    cases mode with
    | fault => exact ⟨Nat.not_lt.1 hle, rfl⟩
    | wrap => exact absurd rfl hmode
  · rintro ⟨hle, rfl⟩
    exact if_neg (Nat.not_lt.2 hle)

theorem valid_of_wordIndex {mode : AddrMode} {a : Word} {n : Nat} (h : wordIndex mode a = some n) :
    a.toNat < 1024 ∨ mode = .wrap := by
  refine (Nat.lt_or_ge a.toNat 1024).imp_right fun hle => ?_
  cases mode with
  | wrap => rfl
  | fault => rw [wordIndex_eq_none_iff.2 ⟨hle, rfl⟩] at h; cases h

theorem execLd_of_wordIndex {rd rs1 : Reg} {s : State} {n : Nat} (hrd : rd ≠ .pc)
    (hn : wordIndex s.cfg.addrMode (s.readReg rs1) = some n) :
    exec (.ld rd rs1) s = .next (s.setReg rd (s.mem.read n)).advance := by
  rw [exec, execLd, refusePc, if_neg hrd, loadAddress, memRead_of_wordIndex .load hn]

theorem execLd_of_none {rd rs1 : Reg} {s : State} (hrd : rd ≠ .pc)
    (hn : wordIndex s.cfg.addrMode (s.readReg rs1) = none) :
    exec (.ld rd rs1) s = .fault (.addressOutOfRange .load (s.readReg rs1)) := by
  rw [exec, execLd, refusePc, if_neg hrd, loadAddress, State.memRead, hn]

theorem execStr_of_wordIndex {rd rs1 : Reg} {s : State} {n : Nat}
    (hn : wordIndex s.cfg.addrMode (storeAddress rd s) = some n) :
    exec (.str rd rs1) s = .next (s.setMem (s.mem.write n (s.readReg rs1))).advance := by
  rw [exec, execStr, State.memWrite, hn]

theorem execStr_of_none {rd rs1 : Reg} {s : State} (hn : wordIndex s.cfg.addrMode (storeAddress rd s) = none) :
    exec (.str rd rs1) s = .fault (.addressOutOfRange .store (storeAddress rd s)) := by
  rw [exec, execStr, State.memWrite, hn]

/-- Settles O19: the address selects a word or none. -/
theorem ldLoadsTheAddressedWord : Obligations.LdLoadsTheAddressedWord := fun s _ _ hrd =>
  ⟨fun hvalid => ⟨_, execLd_of_wordIndex hrd (wordIndex_of_valid hvalid), writesRegister_setReg_advance hrd _ s⟩,
    fun hle hmode => execLd_of_none hrd (wordIndex_eq_none_iff.2 ⟨hle, hmode⟩)⟩

theorem readReg_setMem_advance (s : State) (m : Memory) {r : Reg} (hr : r ≠ .pc) :
    (s.setMem m).advance.readReg r = s.readReg r := by
  rw [State.readReg_advance _ hr, State.readReg_setMem]

/-- Settles O20: the address selects a word or none; a store changes the one word it writes. -/
theorem strStoresTheRegister : Obligations.StrStoresTheRegister := fun s _ _ =>
  ⟨fun hvalid => ⟨_, execStr_of_wordIndex (wordIndex_of_valid hvalid), Memory.read_write_same .., fun _ ha =>
      Memory.read_write_other _ _ ha, fun _ hq => readReg_setMem_advance s _ hq, ⟨rfl, rfl⟩, advanced_of_pc rfl⟩,
    fun hle hmode => execStr_of_none (wordIndex_eq_none_iff.2 ⟨hle, hmode⟩)⟩

/-- Settles O21: the second store is to another word, so the first word still holds what the first store put there. -/
theorem loadReturnsTheLatestStore : Obligations.LoadReturnsTheLatestStore := by
  intro s t u rd rs1 q p a d hfirst hsecond hother hsame hpc hx0
  obtain ⟨n, hn, rfl⟩ := execStr_next hfirst
  obtain ⟨m, hm, rfl⟩ := execStr_next hsecond
  have hnm : n ≠ m := fun h => hother (by rw [hm, hn, h])
  refine ⟨_, execLd_of_wordIndex hpc (hsame.trans hn), ?_⟩
  rw [readReg_setReg_advance_same _ hpc hx0]
  exact (Memory.read_write_other _ _ hnm).trans (Memory.read_write_same ..)

/-! ### Shift mode -/

theorem msb_of_lt {imm6 : BitVec 6} (h : imm6.toNat < 32) : imm6.msb = false := by
  rw [BitVec.msb_eq_decide, decide_eq_false_iff_not]; omega

theorem shiftMode_of_lt (i : Instr) (rs1 : Reg) {imm6 : BitVec 6} (f : Word → Nat → Word) (s : State)
    (h : imm6.toNat < 32) : shiftMode i rs1 imm6 f s = writeBack i rs1 (f (s.readReg rs1) imm6.toNat) s :=
  if_neg (Bool.eq_false_iff.1 (msb_of_lt h))

/-- A negative amount is refused by the shift itself (log 9). -/
theorem shiftMode_of_le (i : Instr) (rs1 : Reg) {imm6 : BitVec 6} (f : Word → Nat → Word) (s : State)
    (h : 32 ≤ imm6.toNat) : shiftMode i rs1 imm6 f s = .fault (.illegalInstruction s.pc (encode i)) :=
  if_pos (by rw [BitVec.msb_eq_decide, decide_eq_true_iff]; omega)

/-- What the four shifts have in common: an amount below 32 writes a result of which `P` is said, any other is
illegal. -/
theorem shiftMode_effect {i : Instr} {rs1 : Reg} {imm6 : BitVec 6} {f : Word → Nat → Word} {s : State}
    {P : Word → Prop} (hexec : exec i s = shiftMode i rs1 imm6 f s) (hP : P (f (s.readReg rs1) imm6.toNat)) :
    (imm6.toNat < 32 → rs1 ≠ .pc → ∃ t v, exec i s = .next t ∧ P v ∧ WritesRegister rs1 v s t) ∧
      (32 ≤ imm6.toNat → exec i s = .fault (.illegalInstruction s.pc (encode i))) :=
  ⟨fun hlt hrs1 => exec_writesRegister (hexec.trans (shiftMode_of_lt i rs1 f s hlt)) hrs1 hP,
    fun hle => hexec.trans (shiftMode_of_le i rs1 f s hle)⟩

theorem toNat_shiftLeft (a : Word) (n : Nat) : (shiftLeft a n).toNat = a.toNat * 2 ^ n % 65536 := by
  rw [shiftLeft, BitVec.toNat_shiftLeft, Nat.shiftLeft_eq]

theorem toNat_shiftRightLogical (a : Word) (n : Nat) : (shiftRightLogical a n).toNat = a.toNat / 2 ^ n := by
  rw [shiftRightLogical, BitVec.toNat_ushiftRight, Nat.shiftRight_eq_div_pow]

theorem toInt_shiftRightArith (a : Word) (n : Nat) : (shiftRightArith a n).toInt = a.toInt / 2 ^ n := by
  rw [shiftRightArith, BitVec.toInt_sshiftRight, Int.shiftRight_eq_div_pow]
  norm_cast

/-- Bit 15 held and the other fifteen bits of another word (45_shift_mode.md R117). -/
theorem toNat_hold_sign (a b : Word) :
    ((a &&& 0x8000) ||| (b &&& 0x7FFF)).toNat = a.toNat / 32768 * 32768 + b.toNat % 32768 := by
  have hsign : a.toNat &&& 0x8000 = a.toNat / 32768 * 32768 := by
    rw [show 0x8000 = 2 ^ 15 from rfl, Nat.and_two_pow, Nat.toNat_testBit]
    have := a.isLt
    omega
  have hrest : b.toNat &&& 0x7FFF = b.toNat % 32768 := Nat.and_two_pow_sub_one_eq_mod b.toNat 15
  rw [BitVec.toNat_or, BitVec.toNat_and, BitVec.toNat_and]
  show (a.toNat &&& 0x8000) ||| (b.toNat &&& 0x7FFF) = _
  rw [hsign, hrest, Nat.mul_comm]
  exact (Nat.two_pow_add_eq_or_of_lt (i := 15) (Nat.mod_lt _ (by decide)) _).symm

theorem toNat_shiftLeftArith_asShl (a : Word) (n : Nat) :
    (shiftLeftArith .asShl a n).toNat = a.toNat * 2 ^ n % 65536 := toNat_shiftLeft a n

theorem toNat_shiftLeftArith_keepSign (a : Word) (n : Nat) :
    (shiftLeftArith .keepSign a n).toNat = a.toNat / 32768 * 32768 + a.toNat * 2 ^ n % 32768 := by
  rw [shiftLeftArith, toNat_hold_sign, toNat_shiftLeft, Nat.mod_mod_of_dvd _ (by decide)]

/-- Settles O25: `shiftMode_effect` of the product. -/
theorem shlShiftsLeft : Obligations.ShlShiftsLeft := fun _ _ _ =>
  shiftMode_effect (f := shiftLeft) rfl (toNat_shiftLeft _ _)

/-- Settles O28: `shiftMode_effect` of the unsigned quotient. -/
theorem shrDividesUnsigned : Obligations.ShrDividesUnsigned := fun _ _ _ =>
  shiftMode_effect (f := shiftRightLogical) rfl (toNat_shiftRightLogical _ _)

/-- Settles O29: `shiftMode_effect` of the signed quotient. -/
theorem sarDividesSignedRoundingDown : Obligations.SarDividesSignedRoundingDown := fun _ _ _ =>
  shiftMode_effect (f := shiftRightArith) rfl (toInt_shiftRightArith _ _)

/-- Settles O26: one formula for each value of `SAL_MODE`. -/
theorem salShiftsLeftUnderItsMode : Obligations.SalShiftsLeftUnderItsMode := by
  intro s rs1 imm6
  simpa only [and_assoc] using shiftMode_effect (i := .sal rs1 imm6) (s := s) (f := shiftLeftArith s.cfg.salMode)
    (P := fun v => (s.cfg.salMode = .asShl → v.toNat = (s.readReg rs1).toNat * 2 ^ imm6.toNat % 65536) ∧
      (s.cfg.salMode = .keepSign → v.toNat =
        (s.readReg rs1).toNat / 32768 * 32768 + (s.readReg rs1).toNat * 2 ^ imm6.toNat % 32768)) rfl
    ⟨fun hmode => hmode ▸ toNat_shiftLeftArith_asShl _ _, fun hmode => hmode ▸ toNat_shiftLeftArith_keepSign _ _⟩

/-- The signed product by a power of two, from the unsigned one: 65536 times the power less when the sign bit is set. -/
theorem toInt_mul_two_pow (a : Word) (n : Nat) : a.toInt * 2 ^ n =
    if a.toNat < 32768 then ((a.toNat * 2 ^ n : Nat) : Int)
    else ((a.toNat * 2 ^ n : Nat) : Int) - 65536 * (2 ^ n : Nat) := by
  rw [BitVec.toInt_eq_toNat_cond]
  by_cases h : a.toNat < 32768
  · rw [if_pos h, if_pos (by omega)]
    push_cast; rfl
  · rw [if_neg h, if_neg (by omega)]
    push_cast; ring

/-- A word whose unsigned reading is that of a 16-bit signed number modulo 65536 is that number. -/
theorem toInt_of_toNat_emod {v : Word} {z : Int} (hlo : -32768 ≤ z) (hhi : z ≤ 32767)
    (h : (v.toNat : Int) = z % 65536) : v.toInt = z := by
  rw [BitVec.toInt_eq_toNat_cond]
  split <;> omega

/-- A product that fits 16 signed bits is the result under both values of `SAL_MODE`: its sign is the sign of `a`. -/
theorem toInt_shiftLeftArith (mode : SalMode) (a : Word) (n : Nat) (hlo : -32768 ≤ a.toInt * 2 ^ n)
    (hhi : a.toInt * 2 ^ n ≤ 32767) : (shiftLeftArith mode a n).toInt = a.toInt * 2 ^ n := by
  refine toInt_of_toNat_emod hlo hhi ?_
  have ha := a.isLt
  have hneg : a.toNat * 2 ^ n < 65536 * 2 ^ n := Nat.mul_lt_mul_of_pos_right ha (Nat.two_pow_pos n)
  rw [toInt_mul_two_pow] at hlo hhi ⊢
  cases mode with
  | asShl => rw [toNat_shiftLeftArith_asShl]; split <;> omega
  | keepSign => rw [toNat_shiftLeftArith_keepSign]; split at * <;> omega

/-- A shift by 0 changes nothing: the product is the value itself, which fits. -/
theorem shiftLeftArith_zero (mode : SalMode) (a : Word) : shiftLeftArith mode a 0 = a := by
  have hle := BitVec.toInt_le (x := a)
  have hge := BitVec.le_toInt a
  have hone : a.toInt * 2 ^ 0 = a.toInt := by rw [pow_zero, mul_one]
  exact BitVec.eq_of_toInt_eq ((toInt_shiftLeftArith mode a 0 (by omega) (by omega)).trans hone)

/-- Settles O27: the product that fits, and the shift by 0, which is one. -/
theorem salIsExactWhenTheProductFits : Obligations.SalIsExactWhenTheProductFits := by
  intro s t rs1 imm6 hx0 h
  obtain ⟨-, hpc, rfl⟩ := shiftMode_next h
  rw [readReg_setReg_advance_same s hpc hx0]
  refine ⟨toInt_shiftLeftArith _ _ _, fun h0 => ?_⟩
  rw [h0]
  exact shiftLeftArith_zero _ _

/-! ### Halt mode -/

theorem exec_halt (s : State) : exec .halt s = .next s.halt := rfl

/-- Settles O30: `halt` is the flag alone; a word with opcode 0000 is `halt`. -/
theorem haltSetsTheFlagOnly : Obligations.HaltSetsTheFlagOnly := by
  refine ⟨fun s => ⟨_, exec_halt s, rfl, rfl, fun r _ => State.readReg_halt s r, fun _ => rfl, rfl⟩, rfl, fun u => ?_⟩
  rw [decode_false]
  refine decodeFields_halt (opcodeField_eq_iff.2 ?_)
  rw [toNat_append_eq]
  exact Nat.mul_mod_left u.toNat 16

end Sys2Proof.Machine
end

section
/-! PROOFS. The instruction cycle, its faults and the end of a run (10_state.md R21, R28; 60_exceptions.md R141 to R144;
70_reset_and_hazards.md R165). -/

namespace Sys2Proof.Machine

/-! ### One step -/

theorem step_of_halted {s : State} (h : s.halted = true) : step s = .next s := if_pos h

theorem step_of_fetchDecode_error {s : State} {f : Fault} (hrun : s.halted = false) (h : s.fetchDecode = .error f) :
    step s = .fault f := by
  rw [step, if_neg (Bool.eq_false_iff.1 hrun), h]

theorem step_of_fetchDecode_ok {s : State} {i : Instr} (hrun : s.halted = false) (h : s.fetchDecode = .ok i) :
    step s = exec i s := by
  rw [step, if_neg (Bool.eq_false_iff.1 hrun), h]

section
variable {s : State} {n : Nat}

theorem fetchDecode_of_none (h : wordIndex s.cfg.addrMode s.pc = none) :
    s.fetchDecode = .error (.addressOutOfRange .fetch s.pc) := by
  rw [State.fetchDecode, State.memRead, h]

theorem fetchDecode_of_illegal (hn : wordIndex s.cfg.addrMode s.pc = some n) {why : Illegal}
    (hdec : decode s.cfg.strictUnused (s.mem.read n) = .error why) :
    s.fetchDecode = .error (.illegalInstruction s.pc (s.mem.read n)) := by
  simp only [State.fetchDecode, memRead_of_wordIndex .fetch hn, hdec]

theorem fetchDecode_of_decode (hn : wordIndex s.cfg.addrMode s.pc = some n) {i : Instr}
    (hdec : decode s.cfg.strictUnused (s.mem.read n) = .ok i) :
    s.fetchDecode = if writesPc i then .error (.writeToPC s.pc (s.mem.read n)) else .ok i := by
  simp only [State.fetchDecode, memRead_of_wordIndex .fetch hn, hdec]

end

theorem writesPc_iff {i : Instr} : writesPc i = true ↔ destField i = some .pc := beq_iff_eq

/-- Settles O33: fetch and decode answer `i`, which the check of x4 lets pass. -/
theorem stepRunsTheDecodedInstruction : Obligations.StepRunsTheDecodedInstruction := by
  intro s n i hrun hn hdec hpc
  refine step_of_fetchDecode_ok hrun ?_
  rw [fetchDecode_of_decode hn hdec, hpc]
  rfl

/-- Settles O22: the next fetch reads the stored word. -/
theorem storeIsSeenByTheNextFetch : Obligations.StoreIsSeenByTheNextFetch := by
  intro s t rd rs1 i hrun hstr hsame hdec hpc
  obtain ⟨n, hn, rfl⟩ := execStr_next hstr
  refine stepRunsTheDecodedInstruction _ n i hrun (hsame.symm.trans hn) ?_ hpc
  rwa [State.advance_mem, State.setMem_mem, Memory.read_write_same]

/-- Settles O34: each error of fetch and decode is the step's fault. -/
theorem stepReportsFaultsInOrder : Obligations.StepReportsFaultsInOrder := by
  refine fun s hrun => ⟨fun hle hmode => ?_, fun hvalid insn hinsn => ⟨fun why hdec => ?_, fun i hdec hdest => ?_⟩⟩
  · exact step_of_fetchDecode_error hrun (fetchDecode_of_none (wordIndex_eq_none_iff.2 ⟨hle, hmode⟩))
  · subst hinsn
    exact step_of_fetchDecode_error hrun (fetchDecode_of_illegal (wordIndex_of_valid hvalid) hdec)
  · subst hinsn
    refine step_of_fetchDecode_error hrun ?_
    rw [fetchDecode_of_decode (wordIndex_of_valid hvalid) hdec, if_pos (writesPc_iff.2 hdest)]

/-! ### Faults and refusals -/

/-- A well-formed instruction that would write x4 through a field is refused (10_state.md R18). -/
theorem exec_of_destField_pc {i : Instr} (hwf : i.wellFormed = true) (hdest : destField i = some .pc) (s : State) :
    exec i s = .fault (.writeToPC s.pc (encode i)) := by
  cases i with
  | halt | jmp | ret | beq | bne | bgt | blt | str => cases hdest
  | addr | andr | nandr | orr | subr | addi | movu | movl | ld => cases hdest; rfl
  | shl | sal | shr | sar => cases hdest; exact if_neg (by simpa [Instr.wellFormed] using hwf)

/-- A store answers a next state or an address fault. -/
theorem exec_str_ne_writeToPC (rd rs1 : Reg) (s : State) (p w : Word) :
    exec (.str rd rs1) s ≠ .fault (.writeToPC p w) := fun h => by
  obtain ⟨-, hf⟩ := memWrite_error (execStr_fault h)
  cases hf

/-- Settles O35: each form is well formed and has x4 as its destination field. -/
theorem formsThatWriteX4Fault : Obligations.FormsThatWriteX4Fault := by
  refine fun s rs1 rs2 imm8 imm6 => ⟨fun i hi => ?_, fun hlt i hi => ?_, exec_str_ne_writeToPC .pc rs1 s⟩
  · have hform : i.wellFormed = true ∧ destField i = some .pc := by
      revert i; simp [Instr.wellFormed, destField]
    exact exec_of_destField_pc hform.1 hform.2 s
  · have hform : i.wellFormed = true ∧ destField i = some .pc := by
      revert i; simp [Instr.wellFormed, destField, msb_of_lt hlt]
    exact exec_of_destField_pc hform.1 hform.2 s

/-- A decoded instruction is well formed under either value of `STRICT_UNUSED`. -/
theorem wellFormed_of_decode {strict : Bool} {w : Word} {i : Instr} (h : decode strict w = .ok i) :
    i.wellFormed = true := by
  cases strict with
  | false => exact (encodeOfDecodeIsTheWordWithUnusedBitsClear w i h).1
  | true => exact (encodeOfDecodeIsTheWordWithUnusedBitsClear w i ((decode_true_iff w i).1 h).1).1

/-- Settles O36: fetch and decode report the first three faults, and of those `exec` can report, only the addresses of
`ld` and `str` are left for an instruction that was decoded. -/
theorem stepFaultsOnlyForTheNamedReasons : Obligations.StepFaultsOnlyForTheNamedReasons := by
  intro s f h
  obtain ⟨hrun, herr | ⟨i, hok, hexec⟩⟩ := step_fault h
  · refine ⟨hrun, ?_⟩
    rcases fetchDecode_error herr with hread | ⟨insn, hread, hdec⟩
    · obtain ⟨hnone, hf⟩ := memRead_error hread
      obtain ⟨hle, hmode⟩ := wordIndex_eq_none_iff.1 hnone
      exact .inl ⟨hle, hmode, hf⟩
    · obtain ⟨n, hn, hinsn⟩ := memRead_ok hread
      refine .inr ⟨n, insn, hn, hinsn, ?_⟩
      rcases hdec with hillegal | ⟨i, hi, hpc, hf⟩
      · exact .inl hillegal
      · exact .inr (.inl ⟨i, hi, writesPc_iff.1 hpc, hf⟩)
  · obtain ⟨n, insn, hn, hinsn, hdec, hpc⟩ := fetchDecode_ok hok
    refine ⟨hrun, .inr ⟨n, insn, hn, hinsn, ?_⟩⟩
    rcases exec_fault hexec with ⟨hill, -⟩ | ⟨hdest, -⟩ | ⟨rd, rs1, rfl, hrd, hread⟩ | ⟨rd, rs1, rfl, hwrite⟩
    · rw [wellFormed_of_decode hdec] at hill; cases hill
    · rw [writesPc_iff.2 hdest] at hpc; cases hpc
    · obtain ⟨hnone, hf⟩ := memRead_error hread
      obtain ⟨hle, hmode⟩ := wordIndex_eq_none_iff.1 hnone
      exact .inr (.inr (.inl ⟨rd, rs1, hdec, hrd, hle, hmode, hf⟩))
    · obtain ⟨hnone, hf⟩ := memWrite_error hwrite
      obtain ⟨hle, hmode⟩ := wordIndex_eq_none_iff.1 hnone
      exact .inr (.inr (.inr ⟨rd, rs1, hdec, hle, hmode, hf⟩))

/-- Settles O24: each of the three address faults needs `ADDR_MODE = fault`. -/
theorem wrapModeRaisesNoAddressFault : Obligations.WrapModeRaisesNoAddressFault := by
  refine ⟨fun s kind a hwrap h => ?_, fun a => ?_⟩
  · obtain ⟨-, ⟨-, hmode, -⟩ | ⟨n, insn, -, -, hf⟩⟩ := stepFaultsOnlyForTheNamedReasons s _ h
    · rw [hwrap] at hmode; cases hmode
    · rcases hf with ⟨_, -, hf⟩ | ⟨_, -, -, hf⟩ | ⟨_, _, -, -, -, hmode, -⟩ | ⟨_, _, -, -, hmode, -⟩
      · cases hf
      · cases hf
      · rw [hwrap] at hmode; cases hmode
      · rw [hwrap] at hmode; cases hmode
  · have hadd : (a + 1024).toNat = (a.toNat + 1024) % 65536 := BitVec.toNat_add a 1024
    have hmod : (a + 1024).toNat % 1024 = a.toNat % 1024 := by omega
    rw [wordIndex_of_valid (.inr rfl), wordIndex_of_valid (.inr rfl), hmod]

theorem writeBack_ne_refused (i : Instr) (rd : Reg) (v : Word) (s : State) (r : Refusal) :
    writeBack i rd v s ≠ .refused r := by
  unfold writeBack refusePc
  split <;> nofun

theorem shiftMode_ne_refused (i : Instr) (rs1 : Reg) (imm6 : BitVec 6) (f : Word → Nat → Word) (s : State)
    (r : Refusal) : shiftMode i rs1 imm6 f s ≠ .refused r := by
  unfold shiftMode
  split
  · nofun
  · exact writeBack_ne_refused _ _ _ s r

theorem execLd_ne_refused (rd rs1 : Reg) (s : State) (r : Refusal) : exec (.ld rd rs1) s ≠ .refused r := by
  by_cases hrd : rd = .pc
  · subst hrd; nofun
  · cases hn : wordIndex s.cfg.addrMode (s.readReg rs1) with
    | none => rw [execLd_of_none hrd hn]; nofun
    | some n => rw [execLd_of_wordIndex hrd hn]; nofun

theorem execStr_ne_refused (rd rs1 : Reg) (s : State) (r : Refusal) : exec (.str rd rs1) s ≠ .refused r := by
  cases hn : wordIndex s.cfg.addrMode (storeAddress rd s) with
  | none => rw [execStr_of_none hn]; nofun
  | some n => rw [execStr_of_wordIndex hn]; nofun

theorem exec_ne_refused (i : Instr) (s : State) (r : Refusal) : exec i s ≠ .refused r := by
  cases i with
  | halt | jmp | ret | beq | bne | bgt | blt => nofun
  | ld rd rs1 => exact execLd_ne_refused rd rs1 s r
  | str rd rs1 => exact execStr_ne_refused rd rs1 s r
  | shl | sal | shr | sar => exact shiftMode_ne_refused _ _ _ _ s r
  | addr | andr | nandr | orr | subr | addi | movu | movl => exact writeBack_ne_refused _ _ _ s r

/-- Settles O37: a step stays, faults in fetch or decode, or is `exec`, which never refuses. -/
theorem noStepIsRefused : Obligations.NoStepIsRefused := by
  intro s r
  cases hrun : s.halted with
  | true => rw [step_of_halted hrun]; nofun
  | false =>
    cases hf : s.fetchDecode with
    | error f => rw [step_of_fetchDecode_error hrun hf]; nofun
    | ok i => rw [step_of_fetchDecode_ok hrun hf]; exact exec_ne_refused i s r

/-! ### Runs -/

theorem runSteps_of_halted {s : State} (h : s.halted = true) (k : Nat) : runSteps k s = .next s := by
  induction k with
  | zero => rfl
  | succ k ih => rw [runSteps_next (step_of_halted h), ih]

/-- Settles O31: `halt` sets the flag, and a halted machine's step is the state itself. -/
theorem haltedMachineNeverChanges : Obligations.HaltedMachineNeverChanges := by
  intro s t h k
  rw [exec_halt] at h
  cases h
  exact runSteps_of_halted rfl k

theorem runSteps_ne_refused (k : Nat) (s : State) (r : Refusal) : runSteps k s ≠ .refused r := by
  induction k generalizing s with
  | zero => nofun
  | succ k ih =>
    cases h : step s with
    | next t => rw [runSteps_next h]; exact ih t
    | fault f => rw [runSteps_fault h]; nofun
    | refused r => exact absurd h (noStepIsRefused s r)

/-- A run that faulted stays at its fault. -/
theorem runSteps_add_of_fault {j : Nat} {s : State} {f : Fault} (h : runSteps j s = .fault f) (k : Nat) :
    runSteps (j + k) s = .fault f := by
  induction j generalizing s with
  | zero => cases h
  | succ j ih =>
    rw [Nat.add_right_comm]
    cases hs : step s with
    | next t => rw [runSteps_next hs] at h ⊢; exact ih h
    | fault g => rw [runSteps_fault hs] at h ⊢; exact h
    | refused r => exact absurd hs (noStepIsRefused s r)

/-- A run that halted stays in its last state. -/
theorem runSteps_add_of_halted {j : Nat} {s t : State} (h : runSteps j s = .next t) (ht : t.halted = true) (k : Nat) :
    runSteps (j + k) s = .next t :=
  (runSteps_add h k).trans (runSteps_of_halted ht k)

/-- From some number of steps on, the run of `s` answers `r`. A run that halts and a run that faults end so, and two
such ends of one run, compared after enough steps, are the same answer. -/
def EndsIn (s : State) (r : Result) : Prop := ∃ j, ∀ k, runSteps (j + k) s = r

theorem EndsIn.unique {s : State} {r q : Result} (hr : EndsIn s r) (hq : EndsIn s q) : r = q := by
  obtain ⟨j, hj⟩ := hr
  obtain ⟨k, hk⟩ := hq
  rw [← hj k, Nat.add_comm, hk j]

theorem HaltsIn.endsIn {s t : State} : HaltsIn s t → EndsIn s (.next t) := fun ⟨j, hj, ht⟩ =>
  ⟨j, runSteps_add_of_halted hj ht⟩

theorem FaultsWith.endsIn {s : State} {f : Fault} : FaultsWith s f → EndsIn s (.fault f) := fun ⟨j, hj⟩ =>
  ⟨j, runSteps_add_of_fault hj⟩

/-- A run that does not go on for ever answers, after some number of steps, a halted state or a fault. -/
theorem halts_or_faults_or_neverEnds (s : State) : (∃ t, HaltsIn s t) ∨ (∃ f, FaultsWith s f) ∨ NeverEnds s := by
  by_cases h : NeverEnds s
  · exact .inr (.inr h)
  · obtain ⟨k, hk⟩ := not_forall.1 h
    cases hrun : runSteps k s with
    | next t =>
      cases ht : t.halted with
      | true => exact .inl ⟨t, k, hrun, ht⟩
      | false => exact absurd ⟨t, hrun, ht⟩ hk
    | fault f => exact .inr (.inl ⟨f, k, hrun⟩)
    | refused r => exact absurd hrun (runSteps_ne_refused k s r)

/-- Settles O32: a run has at most one end, and one that never ends is neither halted nor faulted
after any number of steps. -/
theorem everyRunEndsInExactlyOneWay : Obligations.EveryRunEndsInExactlyOneWay := by
  intro s
  refine ⟨halts_or_faults_or_neverEnds s, ?_, ?_, ?_, fun t u ht hu => ?_, fun f g hf hg => ?_⟩
  · rintro ⟨⟨t, ht⟩, f, hf⟩
    cases ht.endsIn.unique hf.endsIn
  · rintro ⟨⟨t, j, hj, ht⟩, hnever⟩
    obtain ⟨u, hu, hrun⟩ := hnever j
    rw [hj] at hu
    cases hu
    rw [ht] at hrun
    cases hrun
  · rintro ⟨⟨f, j, hj⟩, hnever⟩
    obtain ⟨u, hu, -⟩ := hnever j
    rw [hj] at hu
    cases hu
  · cases ht.endsIn.unique hu.endsIn; rfl
  · cases hf.endsIn.unique hg.endsIn; rfl

/-! ### What an instruction writes and what it depends on -/

/-- A register written through a field is the only one the table lists as written. -/
theorem tableWrites_of_destField {i : Instr} {rd : Reg} (h : destField i = some rd) : tableWrites i = [rd] := by
  cases i <;> cases h <;> rfl

/-- What an instruction with a next state leaves as it was (10_state.md R28). -/
theorem exec_frame (i : Instr) (s t : State) (h : exec i s = .next t) :
    (∀ r, r ≠ .pc → r ∉ tableWrites i → t.readReg r = s.readReg r) ∧ (i = .halt → t.pc = s.pc) ∧
      (tableWritesMemory i = false → SameMemory s t) ∧ (i ≠ .halt → t.halted = s.halted) ∧ t.cfg = s.cfg := by
  have hhalt : i = .halt → t.pc = s.pc := by
    rintro rfl
    rw [exec_halt] at h
    cases h
    rfl
  rcases exec_next h with ⟨rd, v, hdest, -, rfl⟩ | ⟨_, rfl, rfl⟩ | ⟨_, _, n, rfl, -, rfl⟩ | ⟨rfl, rfl⟩ | ⟨_, -, rfl⟩
  · refine ⟨fun r hr hnot => ?_, hhalt, fun _ _ => rfl, fun _ => rfl, rfl⟩
    rw [tableWrites_of_destField hdest, List.mem_singleton] at hnot
    rw [State.readReg_advance _ hr, State.readReg_setReg_other _ _ hnot]
  · refine ⟨fun r hr hnot => ?_, hhalt, fun _ _ => rfl, fun _ => rfl, rfl⟩
    rw [tableWrites, List.mem_singleton] at hnot
    rw [State.readReg_setPc _ _ hr, State.readReg_setReg_other _ _ hnot]
  · exact ⟨fun r hr _ => readReg_setMem_advance s _ hr, hhalt, nofun, fun _ => rfl, rfl⟩
  · exact ⟨fun r _ _ => State.readReg_halt s r, hhalt, fun _ _ => rfl, fun hne => absurd rfl hne, rfl⟩
  · exact ⟨fun r hr _ => State.readReg_setPc s _ hr, hhalt, fun _ _ => rfl, fun _ => rfl, rfl⟩

/-- Settles O38: the frame of the fetched instruction, and for `str` the word at its address. -/
theorem stepWritesOneRegisterOrOneWord : Obligations.StepWritesOneRegisterOrOneWord := by
  refine ⟨fun i => by cases i <;> simp [tableWrites, tableWritesMemory], fun s t h => ?_⟩
  rcases step_next h with ⟨hhalted, rfl⟩ | ⟨hrun, i, hok, hexec⟩
  · exact ⟨rfl, fun _ => rfl, fun hrun => absurd hhalted (Bool.eq_false_iff.1 hrun)⟩
  · obtain ⟨hregs, -, hmem, -, hcfg⟩ := exec_frame i s t hexec
    refine ⟨hcfg, fun hhalted => absurd hhalted (Bool.eq_false_iff.1 hrun), fun _ => ⟨i, hok, hregs, hmem, ?_⟩⟩
    rintro rd rs1 rfl
    obtain ⟨n, hn, rfl⟩ := execStr_next hexec
    refine ⟨by rw [hn]; rfl, fun m hm => ?_⟩
    obtain rfl : n = m := Option.some.inj (hn.symm.trans hm)
    exact ⟨fun a ha => Memory.read_write_other _ _ ha, Memory.read_write_same ..⟩

/-- The outcomes `r` of a state `s` and `q` of a state `u` agree on everything `i` writes: the second half of what R28
says, for one instruction. -/
def SameEffect (i : Instr) (s : State) (r q : Result) : Prop :=
  (∀ f, r = .fault f → q = .fault f) ∧
  ∀ t, r = .next t → ∃ v, q = .next v ∧ (i ≠ .halt → v.pc = t.pc) ∧
    (∀ r ∈ tableWrites i, v.readReg r = t.readReg r) ∧
    (∀ a, t.mem.read a ≠ s.mem.read a → v.mem.read a = t.mem.read a) ∧ (t.halted ≠ s.halted → v.halted = t.halted)

namespace SameEffect

variable {i : Instr} {s u : State}

theorem fault (f : Fault) : SameEffect i s (.fault f) (.fault f) := ⟨fun _ h => h, nofun⟩

theorem halt : SameEffect .halt s (exec .halt s) (exec .halt u) := by
  refine ⟨nofun, fun t ht => ?_⟩
  rw [exec_halt] at ht
  cases ht
  exact ⟨_, exec_halt u, fun hne => absurd rfl hne, nofun, fun a ha => absurd rfl ha, fun _ => rfl⟩

theorem setPc (htable : tableWrites i = []) (target : Word) :
    SameEffect i s (.next (s.setPc target)) (.next (u.setPc target)) := by
  refine ⟨nofun, fun t ht => ?_⟩
  cases ht
  refine ⟨_, rfl, fun _ => rfl, ?_, fun a ha => absurd rfl ha, fun hh => absurd rfl hh⟩
  rw [htable]
  nofun

/-- The two states write the same value to one register and the same `pc`. -/
theorem setReg_setPc {rd : Reg} (htable : tableWrites i = [rd]) (hrd : rd ≠ .pc) (v : Word) {p q : Word}
    (hpq : q = p) : SameEffect i s (.next ((s.setReg rd v).setPc p)) (.next ((u.setReg rd v).setPc q)) := by
  refine ⟨nofun, fun t ht => ?_⟩
  cases ht
  refine ⟨_, rfl, fun _ => hpq, fun q hq => ?_, fun a ha => absurd rfl ha, fun hh => absurd rfl hh⟩
  rw [htable, List.mem_singleton] at hq
  rw [hq, State.readReg_setPc _ _ hrd, State.readReg_setPc _ _ hrd, State.readReg_setReg_same _ _ hrd,
    State.readReg_setReg_same _ _ hrd]

/-- The two states write the same word to the same address. -/
theorem store (htable : tableWrites i = []) (hpc : u.pc = s.pc) (n : Nat) (v : Word) :
    SameEffect i s (.next (s.setMem (s.mem.write n v)).advance) (.next (u.setMem (u.mem.write n v)).advance) := by
  refine ⟨nofun, fun t ht => ?_⟩
  cases ht
  refine ⟨_, rfl, fun _ => congrArg (· + 1) hpc, ?_, fun a ha => ?_, fun hh => absurd rfl hh⟩
  · rw [htable]
    nofun
  · have han : a = n := not_not.1 fun hne => ha (Memory.read_write_other _ _ hne)
    rw [han]
    exact (Memory.read_write_same ..).trans (Memory.read_write_same ..).symm

theorem writeBack {rd : Reg} (htable : tableWrites i = [rd]) (hpc : u.pc = s.pc) {v w : Word} (hv : w = v) :
    SameEffect i s (writeBack i rd v s) (writeBack i rd w u) := by
  subst hv
  by_cases hrd : rd = .pc
  · subst hrd
    rw [Machine.writeBack, Machine.writeBack, refusePc, refusePc, if_pos rfl, if_pos rfl, hpc]
    exact fault _
  · rw [writeBack_of_ne_pc i hrd, writeBack_of_ne_pc i hrd]
    exact setReg_setPc htable hrd w (congrArg (· + 1) hpc)

theorem shiftMode {rs1 : Reg} {imm6 : BitVec 6} {f : Word → Nat → Word} (htable : tableWrites i = [rs1])
    (hpc : u.pc = s.pc) (hread : u.readReg rs1 = s.readReg rs1) :
    SameEffect i s (shiftMode i rs1 imm6 f s) (shiftMode i rs1 imm6 f u) := by
  unfold Machine.shiftMode
  split
  · rw [hpc]; exact fault _
  · exact writeBack htable hpc (by rw [hread])

theorem branchMode {cond : Word → Word → Bool} {rs1 rs2 : Reg} (htable : tableWrites i = []) (hpc : u.pc = s.pc)
    (h1 : u.readReg rs1 = s.readReg rs1) (h2 : u.readReg rs2 = s.readReg rs2) (imm4 : BitVec 4) :
    SameEffect i s (branchMode cond rs1 rs2 imm4 s) (branchMode cond rs1 rs2 imm4 u) := by
  unfold Machine.branchMode State.target State.nextPc
  rw [h1, h2, hpc]
  exact setPc htable _

theorem ld {rd rs1 : Reg} (hpc : u.pc = s.pc) (hcfg : u.cfg = s.cfg) (hread : u.readReg rs1 = s.readReg rs1)
    (hmem : SameMemory s u) : SameEffect (.ld rd rs1) s (exec (.ld rd rs1) s) (exec (.ld rd rs1) u) := by
  by_cases hrd : rd = .pc
  · subst hrd
    rw [exec_of_destField_pc rfl rfl, exec_of_destField_pc rfl rfl, hpc]
    exact fault _
  · cases hn : wordIndex s.cfg.addrMode (s.readReg rs1) with
    | none =>
      rw [execLd_of_none hrd hn, execLd_of_none hrd (by rw [hcfg, hread, hn]), hread]
      exact fault _
    | some n =>
      rw [execLd_of_wordIndex hrd hn, execLd_of_wordIndex hrd (by rw [hcfg, hread, hn]), hmem n]
      exact setReg_setPc rfl hrd _ (congrArg (· + 1) hpc)

theorem str {rd rs1 : Reg} (hpc : u.pc = s.pc) (hcfg : u.cfg = s.cfg) (hdata : u.readReg rs1 = s.readReg rs1)
    (haddr : u.readReg rd = s.readReg rd) :
    SameEffect (.str rd rs1) s (exec (.str rd rs1) s) (exec (.str rd rs1) u) := by
  have haddr : storeAddress rd u = storeAddress rd s := haddr
  cases hn : wordIndex s.cfg.addrMode (storeAddress rd s) with
  | none =>
    rw [execStr_of_none hn, execStr_of_none (by rw [hcfg, haddr, hn]), haddr]
    exact fault _
  | some n =>
    rw [execStr_of_wordIndex hn, execStr_of_wordIndex (by rw [hcfg, haddr, hn]), hdata]
    exact store rfl hpc n _

end SameEffect

/-- States that agree on what the table lists as read give outcomes that agree on what it lists as written: one lemma
per shape of instruction. -/
theorem exec_sameEffect (i : Instr) (s u : State) (hpc : i ≠ .ret → i ≠ .halt → u.pc = s.pc) (hcfg : u.cfg = s.cfg)
    (hreads : ∀ r ∈ tableReads i, u.readReg r = s.readReg r) (hmem : tableReadsMemory i = true → SameMemory s u) :
    SameEffect i s (exec i s) (exec i u) := by
  cases i with
  | halt => exact .halt
  | ret => rw [exec_ret, exec_ret, hreads .ra (by simp [tableReads])]; exact .setPc rfl _
  | jmp imm10 =>
    have hpc := hpc nofun nofun
    rw [exec_jmp, exec_jmp, State.nextPc, State.nextPc, hpc]
    exact .setReg_setPc (rd := .ra) rfl (by decide) _ (congrArg (· + sext imm10) hpc)
  | addr rd rs1 rs2 | andr rd rs1 rs2 | nandr rd rs1 rs2 | orr rd rs1 rs2 | subr rd rs1 rs2 =>
    refine .writeBack rfl (hpc nofun nofun) ?_
    rw [hreads rs1 (by simp [tableReads]), hreads rs2 (by simp [tableReads])]
  | addi rd imm8 | movu rd imm8 | movl rd imm8 =>
    refine .writeBack rfl (hpc nofun nofun) ?_
    rw [hreads rd (by simp [tableReads])]
  | beq rs1 rs2 imm4 | bne rs1 rs2 imm4 | bgt rs1 rs2 imm4 | blt rs1 rs2 imm4 =>
    exact .branchMode rfl (hpc nofun nofun) (hreads rs1 (by simp [tableReads])) (hreads rs2 (by simp [tableReads])) imm4
  | ld rd rs1 => exact .ld (hpc nofun nofun) hcfg (hreads rs1 (by simp [tableReads])) (hmem rfl)
  | str rd rs1 =>
    exact .str (hpc nofun nofun) hcfg (hreads rs1 (by simp [tableReads])) (hreads rd (by simp [tableReads]))
  | shl rs1 | shr rs1 | sar rs1 => exact .shiftMode rfl (hpc nofun nofun) (hreads rs1 (by simp [tableReads]))
  | sal rs1 imm6 =>
    have hsal : exec (.sal rs1 imm6) u = shiftMode (.sal rs1 imm6) rs1 imm6 (shiftLeftArith s.cfg.salMode) u := by
      rw [← hcfg]; rfl
    rw [hsal]
    exact .shiftMode rfl (hpc nofun nofun) (hreads rs1 (by simp [tableReads]))

/-- Settles O40: `exec_frame` for what is written, `exec_sameEffect` for what is read. -/
theorem instructionsReadAndWriteWhatTheTableLists : Obligations.InstructionsReadAndWriteWhatTheTableLists :=
  ⟨exec_frame, exec_sameEffect⟩

end Sys2Proof.Machine
end

section
/-! PROOFS. The pseudo-instructions and the assembler's offsets (47_pseudoinstructions.md, 30_encoding.md R73). -/

namespace Sys2Proof.Machine

/-! ### mov -/

/-- The expansion of one instruction runs as that instruction. -/
theorem execList_singleton (i : Instr) (s : State) : execList [i] s = exec i s := by
  cases h : exec i s with
  | next t => exact execList_cons_next h []
  | fault f => exact execList_cons_fault h []
  | refused r => exact absurd h (exec_ne_refused i s r)

/-- Settles O57: `mov` is `addr` with x0, whose sum is the register itself. -/
theorem movCopiesARegister : Obligations.MovCopiesARegister := by
  refine fun s rd rs1 => ⟨rfl, fun hrd => ?_, fun hrd => ?_⟩
  · refine ⟨_, (execList_singleton _ s).trans ((exec_addr_eq_writeBack ..).trans (writeBack_of_ne_pc _ hrd _ s)), ?_⟩
    have hsum : s.readReg rs1 + s.readReg .x0 = s.readReg rs1 := BitVec.add_zero _
    rw [hsum]
    exact writesRegister_setReg_advance hrd _ s
  · rw [hrd]
    exact (execList_singleton _ s).trans (exec_of_destField_pc rfl rfl s)

/-! ### push -/

/-- The state between the two instructions of `push`: `sp` is lowered, `pc` is the second word's address. -/
def lowered (s : State) : State := (s.setReg .sp (s.readReg .sp - 1)).advance

theorem exec_addi_sp_neg_one (s : State) : exec (.addi .sp (-1)) s = .next (lowered s) := by
  have hminus : sext (-1 : BitVec 8) = -1 := by decide
  rw [exec_addi_eq_writeBack, writeBack_of_ne_pc _ (by decide), hminus, ← BitVec.sub_eq_add_neg, lowered]

theorem readReg_lowered (s : State) (k : Reg) : (lowered s).readReg k =
    if k = .sp then s.readReg .sp - 1 else if k = .pc then s.pc + 1 else s.readReg k := by
  by_cases hsp : k = .sp
  · rw [if_pos hsp, hsp]; rfl
  · rw [if_neg hsp]
    by_cases hpc : k = .pc
    · rw [if_pos hpc, hpc]; rfl
    · rw [if_neg hpc, lowered, State.readReg_advance _ hpc, State.readReg_setReg_other _ _ hsp]

theorem execPseudo_push (k : Reg) (s : State) : execPseudo (.push k) s = exec (.str .sp k) (lowered s) :=
  (execList_cons_next (exec_addi_sp_neg_one s) _).trans (execList_singleton _ _)

theorem execPseudo_push_of_wordIndex {k : Reg} {s : State} {n : Nat}
    (hn : wordIndex s.cfg.addrMode (s.readReg .sp - 1) = some n) : execPseudo (.push k) s =
      .next ((lowered s).setMem (s.mem.write n ((lowered s).readReg k))).advance :=
  (execPseudo_push k s).trans (execStr_of_wordIndex (s := lowered s) hn)

theorem map_encode_push (k : Reg) : (expand (.push k)).map encode = [0xFF36, k.field ++ 0x13E#12] := by
  cases k <;> rfl

/-- Settles O54: `push` is the store of `StrStoresTheRegister` in the state where `sp` is already lowered. -/
theorem pushLowersSpAndStores : Obligations.PushLowersSpAndStores := by
  refine fun s k => ⟨map_encode_push k, fun hvalid => ?_, fun hle hmode => ?_⟩
  · refine ⟨_, execPseudo_push_of_wordIndex (wordIndex_of_valid hvalid), rfl, ?_, fun a ha => ?_, fun q hpc hsp => ?_,
      ⟨rfl, rfl⟩, ?_⟩
    · exact (Memory.read_write_same ..).trans (readReg_lowered s k)
    · exact Memory.read_write_other _ _ ha
    · rw [readReg_setMem_advance _ _ hpc, readReg_lowered, if_neg hsp, if_neg hpc]
    · exact BitVec.add_assoc s.pc 1 1
  · refine ⟨⟨_, exec_addi_sp_neg_one s, rfl⟩, (execPseudo_push k s).trans ?_⟩
    exact execStr_of_none (s := lowered s) (wordIndex_eq_none_iff.2 ⟨hle, hmode⟩)

/-! ### pop -/

theorem exec_addi_sp_one (s : State) : exec (.addi .sp 1) s = .next (s.setReg .sp (s.readReg .sp + 1)).advance := by
  rw [exec_addi_eq_writeBack, writeBack_of_ne_pc _ (by decide)]
  rfl

theorem execPseudo_pop_of_wordIndex {k : Reg} {s : State} {n : Nat} (hk : k ≠ .pc)
    (hn : wordIndex s.cfg.addrMode (s.readReg .sp) = some n) :
    execPseudo (.pop k) s = exec (.addi .sp 1) (s.setReg k (s.mem.read n)).advance :=
  (execList_cons_next (execLd_of_wordIndex hk hn) _).trans (execList_singleton _ _)

theorem map_encode_pop (k : Reg) : (expand (.pop k)).map encode = [0x3#4 ++ 0x2#4 ++ k.field ++ 0xE#4, 0x0136] := by
  cases k <;> rfl

/-- The registers after the second instruction of `pop`: `sp` one higher than the first left it, the others as the first
left them. -/
theorem readReg_pop {s : State} {k : Reg} (hk : k ≠ .pc) (v : Word) {t : State}
    (ht : exec (.addi .sp 1) (s.setReg k v).advance = .next t) :
    t.readReg .sp = (if k = .sp then v else s.readReg .sp) + 1 ∧ (k ≠ .sp → k ≠ .x0 → t.readReg k = v) ∧
      ∀ r, r ≠ .pc → r ≠ .sp → r ≠ k → t.readReg r = s.readReg r := by
  rw [exec_addi_sp_one] at ht
  cases ht
  obtain ⟨hloaded, hrest, -⟩ := writesRegister_setReg_advance hk v s
  obtain ⟨hraised, hkept, -⟩ := writesRegister_setReg_advance (rd := .sp) (by decide)
    ((s.setReg k v).advance.readReg .sp + 1) (s.setReg k v).advance
  refine ⟨hraised.trans (congrArg (· + 1) ?_), fun hsp hx0 => ?_, fun r hpc hsp hr => ?_⟩
  · split
    case isTrue hsp => subst hsp; exact hloaded
    case isFalse hsp => exact hrest .sp (by decide) (Ne.symm hsp)
  · rw [hkept k hk hsp, hloaded, if_neg hx0]
  · rw [hkept r hpc hsp, hrest r hpc hr]

/-- Settles O55: `ld` of the word at `sp`, then `addi` of 1. -/
theorem popLoadsAndRaisesSp : Obligations.PopLoadsAndRaisesSp := by
  refine fun s k => ⟨map_encode_pop k, fun v hk hvalid hv => ?_, fun hk hle hmode => ?_, fun hk => ?_⟩
  · subst hv
    obtain ⟨hsp, hloaded, hrest⟩ := readReg_pop (s := s) hk _ (exec_addi_sp_one _)
    exact ⟨_, (execPseudo_pop_of_wordIndex hk (wordIndex_of_valid hvalid)).trans (exec_addi_sp_one _), hsp, hloaded,
      hrest, fun _ => rfl, ⟨rfl, rfl⟩, BitVec.add_assoc s.pc 1 1⟩
  · exact execList_cons_fault (execLd_of_none hk (wordIndex_eq_none_iff.2 ⟨hle, hmode⟩)) _
  · subst hk
    exact execList_cons_fault (exec_of_destField_pc rfl rfl s) _

/-- A `push` with a next state had an address that selects a word. -/
theorem valid_of_execPseudo_push {s t : State} {k : Reg} (h : execPseudo (.push k) s = .next t) :
    (s.readReg .sp - 1).toNat < 1024 ∨ s.cfg.addrMode = .wrap := by
  rw [execPseudo_push] at h
  obtain ⟨n, hn, -⟩ := execStr_next h
  exact valid_of_wordIndex hn

/-- Settles O56: `pop` reads the word that `push` stored, at the address `push` left in `sp`. -/
theorem pushThenPopRestores : Obligations.PushThenPopRestores := by
  intro s t k hpc hsp h
  have hvalid := valid_of_execPseudo_push h
  obtain ⟨t', ht', hspt, hword, -, hregs, ⟨-, hcfg⟩, hpct⟩ := (pushLowersSpAndStores s k).2.1 hvalid
  obtain rfl : t' = t := by rw [ht'] at h; cases h; rfl
  rw [if_neg hsp, if_neg hpc] at hword
  rw [← hspt, ← hcfg] at hvalid
  rw [← hspt] at hword ⊢
  obtain ⟨u, hu, hspu, hloaded, hrest, hmem, -, hpcu⟩ := (popLoadsAndRaisesSp t' k).2.1 _ hpc hvalid hword
  refine ⟨u, hu, fun r hr => ?_, (hmem _).trans hword, ?_⟩
  · by_cases hrsp : r = .sp
    · rw [hrsp, hspu, if_neg hsp, hspt, BitVec.sub_add_cancel]
    · by_cases hrk : r = k
      · subst hrk
        by_cases hx0 : r = .x0
        · rw [hx0, State.readReg_x0, State.readReg_x0]
        · exact hloaded hsp hx0
      · rw [hrest r hr hrsp hrk, hregs r hr hrsp]
  · rw [hpcu, hpct, BitVec.add_assoc]
    rfl

/-! ### Offsets of labels -/

theorem fit_eq_none_iff {n : Nat} {lo hi v : Int} : fit n lo hi v = none ↔ v < lo ∨ v > hi := by
  unfold fit
  split <;> simp <;> omega

/-- A value that was accepted, in a range its field can hold, is the signed reading of the field. -/
theorem toInt_of_fit {n : Nat} {lo hi v : Int} {k : BitVec n} (hlo : -(2 ^ n / 2 : Nat) ≤ lo)
    (hhi : hi < ((2 ^ n + 1) / 2 : Nat)) (h : fit n lo hi v = some k) : k.toInt = v := by
  unfold fit at h
  split at h
  · cases h
    rw [BitVec.toInt_ofInt, Int.bmod_eq_of_le (by omega) (by omega)]
  · cases h

/-- The distance between two addresses, as a field that holds it, leads from the one to the other modulo 65536. -/
theorem add_signExtend_of_distance {n here a : Nat} {k : BitVec n} (h : k.toInt = (a : Int) - here) :
    BitVec.ofNat 16 here + k.signExtend 16 = BitVec.ofNat 16 a := by
  rw [BitVec.signExtend, h, ← BitVec.ofInt_natCast, ← BitVec.ofInt_natCast, ← BitVec.ofInt_add]
  congr 1
  omega

theorem labelOffset_of_labelAddress {labels : List (String × Nat)} {name : String} {a : Nat}
    (h : labelAddress name labels = some a) (n : Nat) (lo hi : Int) (here : Nat) :
    labelOffset n lo hi labels here name = fit n lo hi ((a : Int) - here) := by
  rw [labelOffset, h]

/-- Settles O58: both offsets are the distance to the label, accepted in the range of their field. -/
theorem assembledOffsetsReachTheirLabels : Obligations.AssembledOffsetsReachTheirLabels := by
  intro labels here a name h
  rw [branchOffset, jumpOffset, labelOffset_of_labelAddress h, labelOffset_of_labelAddress h]
  exact ⟨fun k hk => add_signExtend_of_distance (toInt_of_fit (by decide) (by decide) hk),
    fun k hk => add_signExtend_of_distance (toInt_of_fit (by decide) (by decide) hk), fit_eq_none_iff, fit_eq_none_iff⟩

end Sys2Proof.Machine
end
